-- ==== Sys2Proof/Word.lean ====
section
/-! DEFINITION. The fixed bit widths of the block's codes (spec/30_encoding.md R90). -/

namespace Sys2Proof

/-- An 8-bit code: a key code, a digit character or a segment pattern (R90). -/
abbrev Byte := BitVec 8

/-- A 4-bit row or column nibble (R90). -/
abbrev Nibble := BitVec 4

/-- The 3-bit phase code held in `ph` (R91). -/
abbrev PhaseCode := BitVec 3

/-- One bit, as the digit selector `cur` (R24). -/
abbrev Bit := BitVec 1

end Sys2Proof
end

