-- ==== Sys2Proof/Config.lean ====
section
/-! DEFINITION. What is fixed when the hardware is built, what the environment drives in one clock, and the free environment
(spec/00_scope.md R10, spec/10_state.md R21 R39, spec/20_memory.md R77). -/

namespace Sys2Proof

/-- The OPEN parameters of R10 that a rule of the model depends on.  They cannot change while the block runs (R36).
`P`, `ROW_SETUP_CYCLES` and `SETTLE_CYCLES` are timing only (R280 to R282) and no rule reads them.  Log entry 2. -/
structure Config where
  /-- `TH`, ticks per digit. -/
  th : Nat
  /-- `SEG_TABLE[0..9]`, the logical pattern of each digit (R97). -/
  segTable : Vector Byte 10
  /-- `KEYMAP[r][c]` (R93). -/
  keymap : Vector (Vector Byte 4) 4
  /-- `KEY_INC` (R10, D13). -/
  keyInc : Byte
  /-- `KEY_DEC` (R10, D13). -/
  keyDec : Byte
deriving DecidableEq, Repr

/-- The levels the environment drives on the block's input ports (R21): `rst`, `tick`, `col_n[3:0]`, `tx_ready`. -/
structure Pins where
  rst     : Bool
  tick    : Bool
  colN    : Nibble
  txReady : Bool
deriving DecidableEq, Repr, Inhabited

/-- One clock edge as the environment gives it: the input levels, and whether the scheduler lets agent F perform a step on
it (R7, R39, R245: F's steps run at any rate).  Log entry 3. -/
structure Clock where
  pins  : Pins
  fStep : Bool
deriving DecidableEq, Repr, Inhabited

/-- The environment's own choice of its `n`th clock: any clock at all (R77: "a free input of the step (a draw)").
It has no body, so nothing can be proved about its value.  Log entry 4. -/
opaque Config.freeClock : Nat → Clock

end Sys2Proof
end

