-- ==== Sys2Proof/Machine/Chars.lean ====
section
/-! DEFINITION. Key codes, digit characters and the primitives `isdigit`, `val`, `chr` (spec/00_scope.md R15,
spec/30_encoding.md R92 R98). -/

namespace Sys2Proof

/-- The "no key" sentinel (R92). -/
def noKey : Byte := 0x00#8

/-- The logical pattern of a non-digit: no segment lit (R10, R131). -/
def segBlank : Byte := 0x00#8

/-- `isdigit(k)` of R15. -/
def isDigit (k : Byte) : Bool := decide (0x30#8 ≤ k) && decide (k ≤ 0x39#8)

/-- `val(ch) = ch - 0x30` of R15, used under `isDigit` only. -/
def val (ch : Byte) : Nat := (ch - 0x30#8).toNat

/-- `chr(d) = 0x30 + d` of R15, `d` in 0 to 9. -/
def chr (d : Nat) : Byte := 0x30#8 + BitVec.ofNat 8 d

/-- The digit a code names when it fits the pattern `0011dddd` with `dddd <= 9` of the operation map (R99). -/
def digitOf (v : Byte) : Option (Fin 10) :=
  if v &&& 0xF0#8 = 0x30#8 then
    if h : (v &&& 0x0F#8).toNat < 10 then some ⟨(v &&& 0x0F#8).toNat, h⟩ else none
  else none

/-- The ten digit key codes (R92). -/
def digitKeyCodes : List Byte :=
  [0x30#8, 0x31#8, 0x32#8, 0x33#8, 0x34#8, 0x35#8, 0x36#8, 0x37#8, 0x38#8, 0x39#8]

/-- The six function key codes `A B C D * #` (R92). -/
def functionKeyCodes : List Byte := [0x41#8, 0x42#8, 0x43#8, 0x44#8, 0x2A#8, 0x23#8]

/-- The sixteen key codes of R92. -/
def keyCodes : List Byte := digitKeyCodes ++ functionKeyCodes

end Sys2Proof
end

