-- ==== Sys2Proof/Machine/Params.lean ====
section
/-! DEFINITION. Reading the parameters, their constraints and their defaults (spec/00_scope.md R10,
spec/30_encoding.md R93 R97, spec/10_state.md R25). -/

namespace Sys2Proof

/-- `KEYMAP[r][c]` (R93). -/
def Config.keyAt (c : Config) (r col : Fin 4) : Byte := (c.keymap.get r).get col

/-- `SEG_TABLE[d]` (R97). -/
def Config.segPattern (c : Config) (d : Fin 10) : Byte := c.segTable.get d

/-- The sixteen (row, column) pairs in the order of the position index `4*r + c` (R169). -/
def keyPositions : List (Fin 4 × Fin 4) :=
  [(0, 0), (0, 1), (0, 2), (0, 3), (1, 0), (1, 1), (1, 2), (1, 3),
   (2, 0), (2, 1), (2, 2), (2, 3), (3, 0), (3, 1), (3, 2), (3, 3)]

/-- The sixteen entries of `KEYMAP` in position order. -/
def Config.keyList (c : Config) : List Byte := keyPositions.map fun p => c.keyAt p.1 p.2

/-- The constraints on the OPEN parameters (R10): `TH >= 1`; `KEYMAP` is one-to-one from the sixteen positions onto the
sixteen key codes; `KEY_INC` and `KEY_DEC` are two different function keys.  `SEG_TABLE` is any ten bytes. -/
def Config.Legal (c : Config) : Prop :=
  1 ≤ c.th ∧
  c.keyList.Nodup ∧ c.keyList.all (· ∈ keyCodes) = true ∧ keyCodes.all (· ∈ c.keyList) = true ∧
  c.keyInc ∈ functionKeyCodes ∧ c.keyDec ∈ functionKeyCodes ∧ c.keyInc ≠ c.keyDec
deriving Decidable

/-- `CNT_W = max(1, ceil(log2(TH)))` (R10, R25): the least width of at least one bit that holds 0 to `TH - 1`. -/
def Config.cntW (c : Config) : Nat := if c.th ≤ 2 then 1 else Nat.log2 (c.th - 1) + 1

/-- The default `SEG_TABLE` (R97). -/
def defaultSegTable : Vector Byte 10 :=
  #v[0x3F#8, 0x06#8, 0x5B#8, 0x4F#8, 0x66#8, 0x6D#8, 0x7D#8, 0x07#8, 0x7F#8, 0x6F#8]

/-- The default `KEYMAP` `123A / 456B / 789C / *0#D` (R93). -/
def defaultKeymap : Vector (Vector Byte 4) 4 :=
  #v[#v[0x31#8, 0x32#8, 0x33#8, 0x41#8],
     #v[0x34#8, 0x35#8, 0x36#8, 0x42#8],
     #v[0x37#8, 0x38#8, 0x39#8, 0x43#8],
     #v[0x2A#8, 0x30#8, 0x23#8, 0x44#8]]

/-- The defaults of R10.  `TH` has no default there: 3 is the model's own (DESIGN CHOICE, log entry 2). -/
def Config.default : Config :=
  { th := 3, segTable := defaultSegTable, keymap := defaultKeymap, keyInc := 0x23#8, keyDec := 0x2A#8 }

end Sys2Proof
end

