-- ==== Sys2Proof/Machine/State.lean ====
section
/-! DEFINITION. The state of the block, the reasons a step can stop, and the state after reset (spec/10_state.md R20 R34 R42,
spec/60_exceptions.md R246). -/

namespace Sys2Proof.Machine

/-- The DisplayState store (R22, R60): slot 0 is the units digit, slot 1 the tens digit. -/
structure DisplayState where
  units : Byte
  tens  : Byte
deriving DecidableEq, Repr

/-- The ten registers of R20 (`ds` holds two of them), the observer's record `TX` (R34), and the model's own fields: the
parameters the hardware was built with, the encoder's output net, the input levels of the clock being handled, the clocks
the environment has queued, and the number of clocks drawn from the free environment (log entries 2, 3, 4 and 6). -/
structure State where
  /-- The build parameters (R10): no operation writes them. -/
  cfg    : Config
  /-- DisplayState: `ds[0]` and `ds[1]` (R22). -/
  ds     : DisplayState
  /-- The digit selector of MUX (R24). -/
  cur    : Bit
  /-- The tick counter of MUX, `CNT_W` bits (R25). -/
  cnt    : Nat
  /-- The segment latch (R26). -/
  segN   : Byte
  /-- The position of the foreground sequencer (R27). -/
  ph     : PhaseCode
  /-- The scan result (R28). -/
  rk     : Byte
  /-- `previous_raw_key` (R29). -/
  prev   : Byte
  /-- `last_accepted_key` (R29). -/
  last   : Byte
  /-- The event register (R30). -/
  ev     : Byte
  /-- The observer's trace `TX`, oldest byte first (R34). -/
  tx     : List Byte
  /-- The model's own: the pattern ENC returned at its last evaluation, a net and no register (R130; log entry 6). -/
  encOut : Byte
  /-- The model's own: the input levels of the clock being handled (R21, R77; log entry 3). -/
  pins   : Pins
  /-- The model's own: the clocks queued by the environment, next first (R110; log entry 3). -/
  stim   : List Clock
  /-- The model's own: how many clocks the free environment has given (R77; log entry 4). -/
  drawn  : Nat
deriving DecidableEq, Repr

/-- Why the machine stops. -/
inductive Fault where
  /-- Raised by `DSP.INC` and `DSP.DEC` when a slot of `ds` is no digit character: `to_int` has no value there
  (R202; spec/93_implementation_defined.md U1: "Never give it a value").  Unreachable from reset.  Safe. -/
  | numberOutsideDomain
deriving DecidableEq, Repr

/-- Why an operation has no meaning. -/
inductive Refusal where
  /-- An instruction of the table that has no meaning yet, raised by `exec`'s arm.  Safe. -/
  | notModelled (mnemonic : String)
  /-- Raised by every operation when the parameters break the constraints of R10: "the hardware is not defined for them"
  (R246).  Safe. -/
  | parametersOutsideR10
  /-- Raised by an operation that is not enabled: the decoded value of its space does not select it in this state (R99,
  R246: "in every state agent F has exactly one enabled operation").  A step never asks for one.  Safe. -/
  | notEnabled
deriving DecidableEq, Repr

/-- What an operation answers. -/
abbrev Result := Host.Outcome State Fault Refusal

/-- The state right after reset of hardware built with the parameters `c` (R42).  The fields below `tx` are the model's own:
the encoder net is blank, the inputs rest (no `rst`, no `tick`, columns high, serial not ready) and nothing is queued
(DESIGN CHOICE, log entry 7). -/
def State.initial (c : Config) : State :=
  { cfg := c
    ds := { units := 0x30#8, tens := 0x30#8 }
    cur := 0#1
    cnt := 0
    segN := 0xFF#8
    ph := 0#3
    rk := noKey
    prev := noKey
    last := noKey
    ev := noKey
    tx := []
    encOut := segBlank
    pins := { rst := false, tick := false, colN := 0xF#4, txReady := false }
    stim := []
    drawn := 0 }

/-- The state right after reset, with the default parameters (R10, R42). -/
def State.reset : State := State.initial Config.default

end Sys2Proof.Machine
end

