-- ==== Sys2Proof/Machine/Flags.lean ====
section
/-! DEFINITION. The block has no status flag and no condition code; its one yes-or-no result is carried in `ev`
(spec/10_state.md R35). -/

namespace Sys2Proof.Machine

/-- The `Option<LogicalKeyEvent>` carried in `ev` (R35): `NOKEY` means none. -/
def eventOf (s : State) : Option Byte := if s.ev = noKey then none else some s.ev

/-- The test of the debounce filter that accepts a key (R181): two agreeing scans of a key not already accepted. -/
def accepts (s : State) : Bool := decide (s.rk = s.prev) && decide (s.rk ≠ s.last)

end Sys2Proof.Machine
end

