-- ==== Sys2Proof/Machine/Ops.lean ====
section
/-! DEFINITION. The operations every meaning is built from: the gate on parameters and enabling, the DisplayState primitives
(spec/20_memory.md R64 R65), reset (spec/70_reset_and_hazards.md R260) and the input clock (R77). -/

namespace Sys2Proof.Machine

/-- Every operation passes this gate: legal parameters first (R10, R246), then the operation's own enabling condition
(R27, R99). -/
def gate (s : State) (enabled : Bool) (r : Result) : Result :=
  if s.cfg.Legal then
    if enabled then r else .refused .notEnabled
  else .refused .parametersOutsideR10

/-- Do one thing and then, from the state it leaves, another; the first stop ends it. -/
def andThen (r : Result) (k : State → Result) : Result :=
  match r with
  | .next s => k s
  | .fault f => .fault f
  | .refused x => .refused x

/-- `MemRead(i, 1)` (R64): slot 0 is the units digit, slot 1 the tens digit. -/
def memRead (d : DisplayState) (i : Bit) : Byte := if i = 0#1 then d.units else d.tens

/-- `MemWrite(0, 2, {t, u})` (R65): both slots in one step, the only write DisplayState has. -/
def memWrite (s : State) (t u : Byte) : State := { s with ds := { units := u, tens := t } }

/-- Hand one byte to the serial collaborator: `TX <- TX ++ [b]` (R15, R34). -/
def handOver (s : State) (b : Byte) : State := { s with tx := s.tx ++ [b] }

/-- The control transfer `ph <- target` of agent F (R15). -/
def goTo (s : State) (target : PhaseCode) : State := { s with ph := target }

/-- The reset operation (R260): every register takes its reset value of R42 and `TX` is emptied.  The parameters are not
state (R36) and the environment's inputs are its own (R39): both stay. -/
def takeReset (s : State) : Result :=
  gate s true (.next { State.initial s.cfg with pins := s.pins, stim := s.stim, drawn := s.drawn })

/-- A clock that brings no event: nothing happens (R232: "in a clock with `tick = 0` M does nothing"). -/
def takeIdle (s : State) : Result := gate s true (.next s)

/-- The next clock of the environment: the first one queued, or one of its own free choice (R77). -/
def takeClock (s : State) : Clock × State :=
  match s.stim with
  | c :: cs => (c, { s with stim := cs })
  | [] => (Config.freeClock s.drawn, { s with drawn := s.drawn + 1 })

/-- Put a clock in front of the queue: it is the next one taken. -/
def queueFirst (s : State) (c : Clock) : State := { s with stim := c :: s.stim }

end Sys2Proof.Machine
end

