-- ==== Sys2Proof/Machine/Debounce.lean ====
section
/-! DEFINITION. The debounce filter DBF (spec/43_debounce_filter.md R181). -/

namespace Sys2Proof.Machine

/-- `FILTER` (R181): release or idle; acceptance; no emission.  `prev <- rk` in all three. -/
def execFilter (s : State) : Result :=
  gate s (s.ph = 5#3) <| .next <|
    if s.rk = noKey then goTo { s with prev := s.rk, last := noKey, ev := noKey } 0#3
    else if accepts s then goTo { s with prev := s.rk, last := s.rk, ev := s.rk } 6#3
    else goTo { s with prev := s.rk, ev := noKey } 0#3

end Sys2Proof.Machine
end

