-- ==== Sys2Proof/Machine/Operands.lean ====
section
/-! DEFINITION. What an operation reads (the column decoder, spec/30_encoding.md R94 and spec/42_keypad_scanner.md R164; the
number conversions, spec/44_input_dispatcher.md R202) and what the output ports show (spec/10_state.md R31 to R33). -/

namespace Sys2Proof.Machine

/-- The column a sampled nibble names: the lowest index `c` with `col_n[c] = 0`, if any (R94). -/
def columnOf (q : Nibble) : Option (Fin 4) :=
  if q.getLsbD 0 = false then some 0
  else if q.getLsbD 1 = false then some 1
  else if q.getLsbD 2 = false then some 2
  else if q.getLsbD 3 = false then some 3
  else none

/-- `resolve(r, q)`: the key seen in row `r` when the columns read `q` (R164). -/
def resolve (c : Config) (r : Fin 4) (q : Nibble) : Byte :=
  match columnOf q with
  | some col => c.keyAt r col
  | none => noKey

/-- The scan result after a later row is sampled: a key already found stays (R161 to R163). -/
def keepOrResolve (s : State) (r : Fin 4) : Byte :=
  if s.rk = noKey then resolve s.cfg r s.pins.colN else s.rk

/-- `to_int` (R202), defined only when both slots are digit characters. -/
def toInt (d : DisplayState) : Option Nat :=
  if isDigit d.tens && isDigit d.units then some (val d.tens * 10 + val d.units) else none

/-- `to_digits` (R202), applied to 0 to 99 only. -/
def toDigits (n : Nat) : DisplayState := { units := chr (n % 10), tens := chr (n / 10) }

/-- Output `dsel` (R31). -/
def dsel (s : State) : Bit := s.cur

/-- Output `row_n[3:0]` (R32, R95): row `ph` is low while `ph` is 0 to 3, all rows are high otherwise. -/
def rowN (s : State) : Nibble := if s.ph.getLsbD 2 then 0xF#4 else ~~~(1#4 <<< s.ph.toNat)

/-- Output `seg_n[7:0]`: the latch (R26). -/
def segLines (s : State) : Byte := s.segN

/-- Output `tx_valid` (R33). -/
def txValid (s : State) : Bool := decide (s.ph = 7#3)

/-- Output `tx_data[7:0]` (R33). -/
def txData (s : State) : Byte := s.ev

end Sys2Proof.Machine
end

