-- ==== Sys2Proof/Machine/Dispatcher.lean ====
section
/-! DEFINITION. The input dispatcher DSP and the serial echo (spec/44_input_dispatcher.md R200 to R206). -/

namespace Sys2Proof.Machine

/-- The increment modulo 100 (R203). -/
def increment (n : Nat) : Nat := (n + 1) % 100

/-- The decrement that wraps below zero to 99 (R204): tested before subtracting. -/
def decrement (n : Nat) : Nat := if n = 0 then 99 else n - 1

/-- Replace the two-digit number by `f` of it and return to the scan (R203, R204).  A pair that is not two digit characters
has no number (U1). -/
def changeNumber (s : State) (f : Nat → Nat) : Result :=
  match toInt s.ds with
  | some n => .next (goTo (memWrite s (toDigits (f n)).tens (toDigits (f n)).units) 0#3)
  | none => .fault .numberOutsideDomain

/-- `DSP.DIGIT` (R201): the event is written as it stands and the old units digit moves to the tens slot. -/
def execDspDigit (d : Fin 10) (s : State) : Result :=
  gate s (s.ph = 6#3 && s.ev = chr d) (.next (goTo (memWrite s s.ds.units s.ev) 7#3))

/-- `DSP.INC` (R203). -/
def execDspInc (s : State) : Result :=
  gate s (s.ph = 6#3 && s.ev = s.cfg.keyInc) (changeNumber s increment)

/-- `DSP.DEC` (R204). -/
def execDspDec (s : State) : Result :=
  gate s (s.ph = 6#3 && s.ev = s.cfg.keyDec) (changeNumber s decrement)

/-- `DSP.NOP` (R205): any other key. -/
def execDspNop (key : Byte) (s : State) : Result :=
  gate s (s.ph = 6#3 && s.ev = key && !isDigit key && key ≠ s.cfg.keyInc && key ≠ s.cfg.keyDec)
    (.next (goTo s 0#3))

/-- `DISPATCH` (R200): one of the four cases, chosen by `ev`, in one step. -/
def execDispatch (s : State) : Result :=
  match digitOf s.ev with
  | some d => execDspDigit d s
  | none =>
    if s.ev = s.cfg.keyInc then execDspInc s
    else if s.ev = s.cfg.keyDec then execDspDec s
    else execDspNop s.ev s

/-- `SEND` (R206): the byte is handed over when the collaborator is ready, otherwise nothing changes. -/
def execSend (s : State) : Result :=
  gate s (s.ph = 7#3) (.next (if s.pins.txReady then goTo (handOver s s.ev) 0#3 else s))

end Sys2Proof.Machine
end

