-- ==== Sys2Proof/Machine/Encoder.lean ====
section
/-! DEFINITION. The segment encoder ENC (spec/40_segment_encoder.md R130 to R132). -/

namespace Sys2Proof.Machine

/-- `ENCODE(ch)` (R130, R131), total on all 256 values. -/
def segEncode (c : Config) (ch : Byte) : Byte :=
  match digitOf ch with
  | some d => c.segPattern d
  | none => segBlank

/-- Evaluate ENC on a character: its result stands on the encoder's output net and no register changes (R132). -/
def driveEncoder (s : State) (pattern : Byte) : State := { s with encOut := pattern }

/-- `ENCODE.DIGIT` (R130). -/
def execEncodeDigit (d : Fin 10) (s : State) : Result :=
  gate s true (.next (driveEncoder s (s.cfg.segPattern d)))

/-- `ENCODE.BLANK` (R131): a code that is no digit character. -/
def execEncodeBlank (ch : Byte) (s : State) : Result :=
  gate s (!isDigit ch) (.next (driveEncoder s segBlank))

end Sys2Proof.Machine
end

