-- ==== Sys2Proof/Machine/Mux.lean ====
section
/-! DEFINITION. The display multiplex refresher MUX (spec/41_mux_refresher.md R140). -/

namespace Sys2Proof.Machine

/-- The refresh branch of `TICK` (R140): the slot read is the one the cursor names after the toggle, and the latch takes
the complement of the encoder's result. -/
def refresh (s : State) : State :=
  let n := ~~~s.cur
  let e := driveEncoder s (segEncode s.cfg (memRead s.ds n))
  { e with cnt := 0, cur := n, segN := ~~~e.encOut }

/-- The count branch of `TICK` (R140): `cnt <- c1[CNT_W-1:0]`. -/
def countUp (s : State) : State := { s with cnt := (s.cnt + 1) % 2 ^ s.cfg.cntW }

/-- `TICK` (R140): enabled in every state. -/
def execTick (s : State) : Result :=
  gate s true (.next (if s.cnt + 1 = s.cfg.th then refresh s else countUp s))

end Sys2Proof.Machine
end

