-- ==== Sys2Proof/Machine/Scanner.lean ====
section
/-! DEFINITION. The keypad matrix scanner KSC and the settle delay (spec/42_keypad_scanner.md R160 to R163, R170). -/

namespace Sys2Proof.Machine

/-- `ROW0` (R160): starts a new scan result; the old `rk` is not looked at. -/
def execRow0 (s : State) : Result :=
  gate s (s.ph = 0#3) (.next (goTo { s with rk := resolve s.cfg 0 s.pins.colN } 1#3))

/-- `ROW1` (R161). -/
def execRow1 (s : State) : Result :=
  gate s (s.ph = 1#3) (.next (goTo { s with rk := keepOrResolve s 1 } 2#3))

/-- `ROW2` (R162): the same policy as the other rows (conflict C1). -/
def execRow2 (s : State) : Result :=
  gate s (s.ph = 2#3) (.next (goTo { s with rk := keepOrResolve s 2 } 3#3))

/-- `ROW3` (R163): ends the electrical scan. -/
def execRow3 (s : State) : Result :=
  gate s (s.ph = 3#3) (.next (goTo { s with rk := keepOrResolve s 3 } 4#3))

/-- `SETTLE` (R170): nothing but the wait. -/
def execSettle (s : State) : Result :=
  gate s (s.ph = 4#3) (.next (goTo s 5#3))

end Sys2Proof.Machine
end

