-- ==== Sys2Proof/Syntax.lean ====
section
/-! DEFINITION. The fifteen operations of spec/opcode_table.json, one constructor a row (spec/30_encoding.md R99). -/

namespace Sys2Proof

/-- The operations of the block.  A row of space `KEY` or `CHAR` carries the field of its pattern: the digit `dddd` of
`0011dddd`, or the whole code of a catch-all row.  `col_n`, `tick` and `tx_ready` are inputs of the step (R77), no fields. -/
inductive Instr where
  | tick
  | row0
  | row1
  | row2
  | row3
  | settle
  | filter
  | dispatch
  | send
  | dspDigit (d : Fin 10)
  | dspInc
  | dspDec
  | dspNop (key : Byte)
  | encodeDigit (d : Fin 10)
  | encodeBlank (ch : Byte)
deriving DecidableEq, Repr

/-- The four decode spaces (R99). -/
inductive Space where
  | evt
  | ph
  | key
  | char
deriving DecidableEq, Repr

/-- A code to be decoded: its space and its value, in the low bits of a byte (the widest space has eight bits). -/
structure Code where
  space : Space
  value : Byte
deriving DecidableEq, Repr

/-- Why a code selects no operation. -/
inductive DecodeError where
  /-- `EVT` value 0: "with `tick = 0` agent M does nothing" (R99). -/
  | noTick
  /-- A bit above the space's width is set: no value of that space. -/
  | bitsAboveWidth
deriving DecidableEq, Repr

end Sys2Proof
end

