-- ==== Sys2Proof/Machine/Dispatch.lean ====
section
/-! DEFINITION. The meaning of each operation of the table, one arm a row. -/

namespace Sys2Proof.Machine

def exec (i : Instr) (s : State) : Host.Outcome State Fault Refusal :=
  match i with
  | .tick => Sys2Proof.Machine.execTick s
  | .row0 => Sys2Proof.Machine.execRow0 s
  | .row1 => Sys2Proof.Machine.execRow1 s
  | .row2 => Sys2Proof.Machine.execRow2 s
  | .row3 => Sys2Proof.Machine.execRow3 s
  | .settle => Sys2Proof.Machine.execSettle s
  | .filter => Sys2Proof.Machine.execFilter s
  | .dispatch => Sys2Proof.Machine.execDispatch s
  | .send => Sys2Proof.Machine.execSend s
  | .dspDigit d => Sys2Proof.Machine.execDspDigit d s
  | .dspInc => Sys2Proof.Machine.execDspInc s
  | .dspDec => Sys2Proof.Machine.execDspDec s
  | .dspNop key => Sys2Proof.Machine.execDspNop key s
  | .encodeDigit d => Sys2Proof.Machine.execEncodeDigit d s
  | .encodeBlank ch => Sys2Proof.Machine.execEncodeBlank ch s

end Sys2Proof.Machine
end

