-- ==== Sys2Proof/WellFormed.lean ====
section
/-! DEFINITION. Which operations the operation map can produce: a catch-all row holds only a code that no earlier row of its
space takes (spec/30_encoding.md R99). -/

namespace Sys2Proof

/-- `dspNop` holds a code that is no digit, not `KEY_INC` and not `KEY_DEC`; `encodeBlank` one that is no digit. -/
def Instr.wellFormed (c : Config) : Instr → Bool
  | .tick | .row0 | .row1 | .row2 | .row3 | .settle | .filter | .dispatch | .send => true
  | .dspDigit _ | .dspInc | .dspDec | .encodeDigit _ => true
  | .dspNop k => !isDigit k && decide (k ≠ c.keyInc) && decide (k ≠ c.keyDec)
  | .encodeBlank ch => !isDigit ch

end Sys2Proof
end

