-- ==== Sys2Proof/Decode.lean ====
section
/-! DEFINITION. The operation map (spec/30_encoding.md R91 R99) as a total decoder, and its encoder. -/

namespace Sys2Proof

/-- Space `PH` (R91): all eight phase codes select an operation. -/
def decodePh (v : PhaseCode) : Instr :=
  if v = 0b000#3 then .row0
  else if v = 0b001#3 then .row1
  else if v = 0b010#3 then .row2
  else if v = 0b011#3 then .row3
  else if v = 0b100#3 then .settle
  else if v = 0b101#3 then .filter
  else if v = 0b110#3 then .dispatch
  else .send

/-- Space `KEY` (R99): the rows in order, the last one a catch-all. -/
def decodeKey (c : Config) (v : Byte) : Instr :=
  match digitOf v with
  | some d => .dspDigit d
  | none => if v = c.keyInc then .dspInc else if v = c.keyDec then .dspDec else .dspNop v

/-- Space `CHAR` (R99): a digit character, or anything else. -/
def decodeChar (v : Byte) : Instr :=
  match digitOf v with
  | some d => .encodeDigit d
  | none => .encodeBlank v

/-- The operation a code selects (R99).  Only `EVT` 0 and a value wider than its space select none. -/
def decode (c : Config) (code : Code) : Except DecodeError Instr :=
  match code.space with
  | .evt =>
    if code.value = 0x01#8 then .ok .tick
    else if code.value = 0x00#8 then .error .noTick
    else .error .bitsAboveWidth
  | .ph =>
    if code.value.toNat < 8 then .ok (decodePh (code.value.setWidth 3)) else .error .bitsAboveWidth
  | .key => .ok (decodeKey c code.value)
  | .char => .ok (decodeChar code.value)

/-- The code of an operation, from the same map (R91, R99). -/
def encode (c : Config) : Instr → Code
  | .tick => ⟨.evt, 0x01#8⟩
  | .row0 => ⟨.ph, 0x00#8⟩
  | .row1 => ⟨.ph, 0x01#8⟩
  | .row2 => ⟨.ph, 0x02#8⟩
  | .row3 => ⟨.ph, 0x03#8⟩
  | .settle => ⟨.ph, 0x04#8⟩
  | .filter => ⟨.ph, 0x05#8⟩
  | .dispatch => ⟨.ph, 0x06#8⟩
  | .send => ⟨.ph, 0x07#8⟩
  | .dspDigit d => ⟨.key, 0x30#8 ||| BitVec.ofNat 8 d.val⟩
  | .dspInc => ⟨.key, c.keyInc⟩
  | .dspDec => ⟨.key, c.keyDec⟩
  | .dspNop k => ⟨.key, k⟩
  | .encodeDigit d => ⟨.char, 0x30#8 ||| BitVec.ofNat 8 d.val⟩
  | .encodeBlank ch => ⟨.char, ch⟩

/-- The width in bits of a space (R99). -/
def Space.width : Space → Nat
  | .evt => 1
  | .ph => 3
  | .key => 8
  | .char => 8

/-- The space a bare word of the opcode table is read in.  The table's four spaces overlap and a word does not name its
space: a 1-bit word is read in `EVT`, a 3-bit word in `PH`, a whole byte below 8 in `PH` and any other byte in `KEY`
(DESIGN CHOICE, log entry 5). -/
def tableSpace (nbits w : Nat) : Space :=
  if nbits = 1 then .evt else if nbits = 3 then .ph else if w < 8 then .ph else .key

/-- The operation of a bare word of the opcode table, under the default parameters (the table's own `match` values). -/
def decodeTableWord (nbits w : Nat) : Option Instr :=
  if w < 256 then
    match decode Config.default ⟨tableSpace nbits w, BitVec.ofNat 8 w⟩ with
    | .ok i => some i
    | .error _ => none
  else none

end Sys2Proof
end

