-- ==== Sys2Proof/Machine/Fetch.lean ====
section
/-! DEFINITION. What the next clock asks for (spec/60_exceptions.md R232 R234, spec/20_memory.md R71), and how a bare word of
the opcode table is made the next operation (log entry 5). -/

namespace Sys2Proof.Machine

/-- What one step performs. -/
inductive Event where
  /-- The reset operation (R260). -/
  | reset
  /-- An operation of the table. -/
  | op (i : Instr)
  /-- A clock that brings no event. -/
  | idle
deriving DecidableEq, Repr

/-- Take the environment's next clock and say what it asks for (R234): `rst` wins over everything; a `tick` is one `TICK`,
and an F step on the same edge follows it as the next step (R71); an F step performs the operation `ph` names (R27). -/
def fetch (s : State) : Event × State :=
  let (c, s1) := takeClock s
  let s2 := { s1 with pins := c.pins }
  if c.pins.rst then (.reset, s2)
  else if c.pins.tick then
    (.op .tick, if c.fStep then queueFirst s2 { c with pins := { c.pins with tick := false } } else s2)
  else if c.fStep then (.op (decodePh s.ph), s2)
  else (.idle, s2)

/-- The clock of one `TICK` and nothing else. -/
def tickClock : Clock :=
  { pins := { rst := false, tick := true, colN := 0xF#4, txReady := false }, fStep := false }

/-- The clock of one F step with the given column levels and serial readiness. -/
def stepClock (q : Nibble) (ready : Bool) : Clock :=
  { pins := { rst := false, tick := false, colN := q, txReady := ready }, fStep := true }

/-- Make a code the next thing decoded in its space: the clock that decodes it stands first in the queue, and the register
it is decoded from holds it.  A `KEY` code is `ev` at `ph = 6`; a `CHAR` code is the slot the next refresh reads. -/
def placeCode (s : State) (code : Code) : State :=
  match code.space with
  | .evt => queueFirst s tickClock
  | .ph => queueFirst { s with ph := code.value.setWidth 3 } (stepClock 0xF#4 true)
  | .key => queueFirst { s with ph := 6#3, ev := code.value } (stepClock 0xF#4 true)
  | .char =>
    let d := if s.cur = 0#1 then { s.ds with tens := code.value } else { s.ds with units := code.value }
    queueFirst { s with ds := d, cnt := s.cfg.th - 1 } tickClock

end Sys2Proof.Machine
end

