-- ==== Sys2Proof/Machine/Step.lean ====
section
/-! DEFINITION. One step of the block: one atomic operation (spec/00_scope.md R7 R14). -/

namespace Sys2Proof.Machine

/-- Take the next clock and perform what it asks for. -/
def step (s : State) : Host.Outcome State Fault Refusal :=
  match fetch s with
  | (.reset, t) => takeReset t
  | (.op i, t) => exec i t
  | (.idle, t) => takeIdle t

/-- `s` with a bare word of the opcode table placed so that the next step runs its operation (log entry 5). -/
def State.withFetchWord (s : State) (nbits w : Nat) : State :=
  match decodeTableWord nbits w with
  | some i => placeCode s (encode Config.default i)
  | none => s

end Sys2Proof.Machine
end

