-- ==== Sys2Proof/Machine/Stimulus.lean ====
section
/-! DEFINITION. Stimulus traces and their pseudo-operations (spec/30_encoding.md R110 R111), and the ideal keypad
(spec/42_keypad_scanner.md R168). -/

namespace Sys2Proof.Machine

/-- One line of a stimulus trace (R110). -/
inductive Line where
  /-- `TICK` -/
  | tick
  /-- `F col=0bc3c2c1c0` -/
  | fCol (q : Nibble)
  /-- `F` -/
  | f
  /-- `F ready=1` and `F ready=0` -/
  | fReady (ready : Bool)
  /-- `RESET` -/
  | reset
deriving DecidableEq, Repr

/-- The clock a line puts on the input ports (R110).  An input the line does not name rests: no operation that the line is
legal for reads it. -/
def Line.clock : Line → Clock
  | .tick => tickClock
  | .fCol q => stepClock q false
  | .f => stepClock 0xF#4 false
  | .fReady ready => stepClock 0xF#4 ready
  | .reset => { pins := { rst := true, tick := false, colN := 0xF#4, txReady := false }, fStep := false }

/-- The column "legal only when" of R110. -/
def Line.legalAt (ph : PhaseCode) : Line → Bool
  | .tick | .reset => true
  | .fCol _ => decide (ph < 4#3)
  | .f => decide (4#3 ≤ ph) && decide (ph < 7#3)
  | .fReady _ => decide (ph = 7#3)

/-- Run one line from a state: its clock is the next one the step takes (R110).  A line that is not legal at the phase it
meets has no meaning in R110; it runs all the same (DESIGN CHOICE, log entry 17). -/
def runLine (l : Line) (s : State) : Result := step (queueFirst s l.clock)

/-- "A trace is run from the state before it, line by line" (R110). -/
def runLines : List Line → State → Result
  | [], s => .next s
  | l :: ls, s => andThen (runLine l s) (runLines ls)

/-- Every line of a trace is legal at the phase it meets (R110). -/
def legalTrace : List Line → State → Bool
  | [], _ => true
  | l :: ls, s =>
    l.legalAt s.ph &&
      match runLine l s with
      | .next t => legalTrace ls t
      | .fault _ => true
      | .refused _ => true

/-- The ideal keypad (R168): with row `r` selected, column `c` reads 0 exactly when the contact `(r, c)` is closed. -/
def idealColumns (down : Fin 4 → Fin 4 → Bool) (r : Fin 4) : Nibble :=
  BitVec.ofBoolListLE [!down r 0, !down r 1, !down r 2, !down r 3]

/-- The contacts closed while exactly the keys of a set are held down (R111). -/
def holding (c : Config) (keys : List Byte) (r col : Fin 4) : Bool := decide (c.keyAt r col ∈ keys)

/-- The six lines every scan cycle begins with: four row samples, the settle delay, the filter (R111). -/
def scanLines (q : Fin 4 → Nibble) : List Line := [.fCol (q 0), .fCol (q 1), .fCol (q 2), .fCol (q 3), .f, .f]

/-- The rest of a scan cycle: `F` (dispatch) if `ph = 6`, then `F ready=1` if `ph = 7` (R111). -/
def finishCycle (s : State) : Result :=
  andThen (if s.ph = 6#3 then runLine .f s else .next s) fun t =>
    if t.ph = 7#3 then runLine (.fReady true) t else .next t

/-- One full scan cycle in which the four rows read the nibbles `q`.  R111 requires `ph = 0` and gives no meaning elsewhere;
from any other phase the same lines are run (DESIGN CHOICE, log entry 17).  So too for `scan`, `hold` and `press`. -/
def cycle (q : Fin 4 → Nibble) (s : State) : Result := andThen (runLines (scanLines q) s) finishCycle

/-- `SCAN {k1, k2, ...}` (R111), meant at `ph = 0` (log entry 17). -/
def scan (keys : List Byte) (s : State) : Result := cycle (idealColumns (holding s.cfg keys)) s

/-- `HOLD k, n` (R111), meant at `ph = 0` (log entry 17). -/
def hold (k : Byte) : Nat → State → Result
  | 0, s => .next s
  | n + 1, s => andThen (scan [k] s) (hold k n)

/-- `PRESS k` (R111), meant at `ph = 0` (log entry 17). -/
def press (k : Byte) (s : State) : Result := andThen (andThen (scan [k] s) (scan [k])) (scan [])

/-- `TICKS n` (R111). -/
def ticks : Nat → List Line
  | 0 => []
  | n + 1 => .tick :: ticks n

end Sys2Proof.Machine
end

