-- ==== Sys2Proof/Safety.lean ====
section
/-! DEFINITION. The terms claims are stated in: the invariant of the reachable states (spec/10_state.md R23 R25 R26 R43) and
what one agent must leave alone (R40). -/

namespace Sys2Proof.Machine

/-- A code of the RawKey domain plus the sentinel: `NOKEY` or one of the sixteen key codes (R43). -/
abbrev IsRawKey (k : Byte) : Prop := k = noKey ∨ k ∈ keyCodes

/-- The invariant of every reachable state: legal parameters (R10), two digit characters (R23), the counter below the
threshold (R25, R43), the latch blank or a digit's complement (R26), the key registers in their domain, the event present
when it is acted on (R43), and only digits in the trace (R5, R34). -/
structure Inv (s : State) : Prop where
  legal     : s.cfg.Legal
  units     : isDigit s.ds.units = true
  tens      : isDigit s.ds.tens = true
  counter   : s.cnt < s.cfg.th
  latch     : s.segN = 0xFF#8 ∨ ∃ d : Fin 10, s.segN = ~~~(s.cfg.segPattern d)
  scanKey   : IsRawKey s.rk
  prevKey   : IsRawKey s.prev
  lastKey   : IsRawKey s.last
  eventKey  : IsRawKey s.ev
  dispatch  : s.ph = 6#3 → s.ev ≠ noKey
  send      : s.ph = 7#3 → isDigit s.ev = true
  armed     : s.last ≠ noKey → s.prev ≠ noKey
  trace     : ∀ b ∈ s.tx, isDigit b = true

/-- The filter is re-armed and the loop is at its start: the state one no-key scan leaves (R184). -/
structure Rearmed (s : State) : Prop where
  start : s.ph = 0#3
  prev  : s.prev = noKey
  last  : s.last = noKey

/-- The registers of agent M and the net of its encoder have the same values (R20, R40). -/
structure SameDisplay (s t : State) : Prop where
  cur    : t.cur = s.cur
  cnt    : t.cnt = s.cnt
  segN   : t.segN = s.segN
  encOut : t.encOut = s.encOut

/-- The registers of agent F, the store it writes and the trace have the same values (R20, R40). -/
structure SameForeground (s t : State) : Prop where
  ds   : t.ds = s.ds
  ph   : t.ph = s.ph
  rk   : t.rk = s.rk
  prev : t.prev = s.prev
  last : t.last = s.last
  ev   : t.ev = s.ev
  tx   : t.tx = s.tx

/-- How many lines of a trace are `TICK` (R141). -/
def tickCount (ls : List Line) : Nat := ls.countP (· = .tick)

/-- A `TICK` taken now would be a refresh (R18). -/
def refreshDue (s : State) : Bool := decide (s.cnt + 1 = s.cfg.th)

/-- How many of a trace's lines are refreshes (R18, R141), run from a state. -/
def refreshCount : List Line → State → Nat
  | [], _ => 0
  | l :: ls, s =>
    (if l = .tick && refreshDue s then 1 else 0) +
      match runLine l s with
      | .next t => refreshCount ls t
      | .fault _ => 0
      | .refused _ => 0

/-- The scan result and the event register after each of a list of scan cycles (R183). -/
def cycleLog : List (Fin 4 → Nibble) → State → List (Byte × Byte)
  | [], _ => []
  | q :: qs, s =>
    match cycle q s with
    | .next t => (t.rk, t.ev) :: cycleLog qs t
    | .fault _ => []
    | .refused _ => []

/-- The eight operations of agent F's sequencer (R27). -/
def phaseOperations : List Instr := [.row0, .row1, .row2, .row3, .settle, .filter, .dispatch, .send]

/-- The operations that write DisplayState, and the phase that performs them (R20, R200). -/
def writesDisplay : Instr → Bool
  | .dispatch | .dspDigit _ | .dspInc | .dspDec => true
  | .tick | .row0 | .row1 | .row2 | .row3 | .settle | .filter | .send => false
  | .dspNop _ | .encodeDigit _ | .encodeBlank _ => false

/-- The operations of agent M: `TICK`, and the encoder evaluated inside it (R6). -/
def ofDisplay : Instr → Bool
  | .tick | .encodeDigit _ | .encodeBlank _ => true
  | .row0 | .row1 | .row2 | .row3 | .settle | .filter | .dispatch | .send => false
  | .dspDigit _ | .dspInc | .dspDec | .dspNop _ => false

/-- No line of a trace is `RESET`. -/
abbrev NoReset (ls : List Line) : Prop := ∀ l ∈ ls, l ≠ .reset

/-- A step was taken and is complete: it stopped with neither a fault nor a refusal. -/
def completes (r : Result) : Bool :=
  match r with
  | .next _ => true
  | .fault _ => false
  | .refused _ => false

end Sys2Proof.Machine
end

