-- ==== Sys2Proof/Certificates/Slice0/Obligations.lean ====
section
/-! DEFINITION. The statements about the block.  Each one's docstring names the rules it formalises. -/

open Sys2Proof Sys2Proof.Machine

/-! ## Encoding -/

/-- R91, R92, R99: words of every space under the default parameters (log entry 2), written out from the operation map. -/
def Obligations.TableWordsDecode : Prop :=
  decode Config.default ⟨.evt, 0b00000001#8⟩ = .ok .tick ∧
  decode Config.default ⟨.evt, 0b00000000#8⟩ = .error .noTick ∧
  decode Config.default ⟨.ph, 0b00000010#8⟩ = .ok .row2 ∧
  decode Config.default ⟨.ph, 0b00000101#8⟩ = .ok .filter ∧
  decode Config.default ⟨.key, 0b00110111#8⟩ = .ok (.dspDigit 7) ∧
  decode Config.default ⟨.key, 0b00100011#8⟩ = .ok .dspInc ∧
  decode Config.default ⟨.key, 0b00101010#8⟩ = .ok .dspDec ∧
  decode Config.default ⟨.key, 0b01000001#8⟩ = .ok (.dspNop 0x41#8) ∧
  decode Config.default ⟨.char, 0b00111001#8⟩ = .ok (.encodeDigit 9) ∧
  decode Config.default ⟨.char, 0b00111010#8⟩ = .ok (.encodeBlank 0x3A#8)

/-- R91 (its codes): each of the eight phase codes selects its operation, whatever the parameters. -/
def Obligations.PhaseCodesSelectOperations : Prop :=
  ∀ c : Config,
    decode c ⟨.ph, 0b000#8⟩ = .ok .row0 ∧ decode c ⟨.ph, 0b001#8⟩ = .ok .row1 ∧
    decode c ⟨.ph, 0b010#8⟩ = .ok .row2 ∧ decode c ⟨.ph, 0b011#8⟩ = .ok .row3 ∧
    decode c ⟨.ph, 0b100#8⟩ = .ok .settle ∧ decode c ⟨.ph, 0b101#8⟩ = .ok .filter ∧
    decode c ⟨.ph, 0b110#8⟩ = .ok .dispatch ∧ decode c ⟨.ph, 0b111#8⟩ = .ok .send

/-- R99: decoding the code of any operation the map can produce gives it back, for every legal choice of parameters. -/
def Obligations.DecodeOfEncodeIsIdentity : Prop :=
  ∀ (c : Config) (i : Instr), c.Legal → i.wellFormed c = true → decode c (encode c i) = .ok i

/-- R99, R100: every decoded code gives an operation the map can produce, and encoding it gives the code back; only `EVT` 0
and values wider than their space select nothing. -/
def Obligations.EncodeOfDecodeIsIdentity : Prop :=
  ∀ (c : Config) (code : Code),
    (∀ i, decode c code = .ok i → i.wellFormed c = true ∧ encode c i = code) ∧
    ((∃ e, decode c code = .error e) ↔
      (code.space = .evt ∧ code.value ≠ 1#8) ∨ (code.space = .ph ∧ 8 ≤ code.value.toNat))

/-! ## Reset -/

/-- R42: the value of every register right after reset and the outputs it gives, for every choice of parameters;
the machine's reset is that state for the parameters it was built with. -/
def Obligations.ResetValues : Prop :=
  State.reset = State.initial State.reset.cfg ∧
  ∀ c : Config,
    let s := State.initial c
    s.ds.units = 0x30#8 ∧ s.ds.tens = 0x30#8 ∧ s.cur = 0#1 ∧ s.cnt = 0 ∧ s.segN = 0xFF#8 ∧ s.ph = 0#3 ∧
    s.rk = 0x00#8 ∧ s.prev = 0x00#8 ∧ s.last = 0x00#8 ∧ s.ev = 0x00#8 ∧ s.tx = [] ∧
    dsel s = 0#1 ∧ segLines s = 0xFF#8 ∧ rowN s = 0b1110#4 ∧ txValid s = false ∧ txData s = 0x00#8

/-- R260: a clock with `rst = 1` gives every register its reset value and empties `TX`, whatever `tick`, `col_n` and
`tx_ready` are and whether or not F would step; no `TICK` and no F step is performed or left waiting.
The clauses on the model's own fields (`encOut` blank; `pins`, `stim`, `drawn` kept or taken from the clock) are the model's
choice, log entries 3 and 7 (DESIGN CHOICE). -/
def Obligations.ResetOverridesEverything : Prop :=
  ∀ (s : State) (c : Clock) (rest : List Clock),
    s.cfg.Legal → s.stim = c :: rest → c.pins.rst = true →
    ∃ t, step s = .next t ∧ t = { State.initial s.cfg with pins := c.pins, stim := rest, drawn := s.drawn }

/-! ## Outputs and the store -/

/-- R31, R33: `dsel` is the cursor; `tx_valid` is 1 exactly at `ph = 7`; `tx_data` is `ev`. -/
def Obligations.SelectAndSerialOutputs : Prop :=
  ∀ s : State, dsel s = s.cur ∧ (txValid s = true ↔ s.ph = 7#3) ∧ txData s = s.ev

/-- R32, R171: row `r` is low exactly when `ph = r`; with `ph` in 4 to 7 all rows are high; no two rows are low together. -/
def Obligations.OneRowLowOnlyDuringScan : Prop :=
  ∀ s : State,
    (∀ r : Fin 4, (rowN s).getLsbD r.val = false ↔ s.ph.toNat = r.val) ∧
    (4#3 ≤ s.ph → rowN s = 0b1111#4) ∧
    (∀ r r' : Fin 4, (rowN s).getLsbD r.val = false → (rowN s).getLsbD r'.val = false → r = r')

/-- R64, R65: the joint write sets both slots and nothing else, and a read of a slot gives what was written. -/
def Obligations.JointWriteSetsBothSlots : Prop :=
  ∀ (s : State) (t u : Byte),
    memRead (memWrite s t u).ds 1#1 = t ∧ memRead (memWrite s t u).ds 0#1 = u ∧
    memWrite s t u = { s with ds := { units := u, tens := t } }

/-! ## The step -/

/-- R27, R91, R232: when the next clock is an F step and brings neither `rst` nor `tick`, a step is the operation the phase
code decodes to, on the state with that clock taken and its levels on the input ports (the queue of clocks is the model's
choice, log entry 3). -/
def Obligations.StepRunsPhaseOperation : Prop :=
  ∀ (s : State) (c : Clock) (rest : List Clock) (i : Instr),
    s.stim = c :: rest → c.pins.rst = false → c.pins.tick = false → c.fStep = true →
    decode s.cfg ⟨.ph, s.ph.setWidth 8⟩ = .ok i →
    step s = exec i { s with pins := c.pins, stim := rest }

/-- R200, R99: at `ph = 6` such a step is the operation that space `KEY` selects for `ev` (the queue of clocks is the model's
choice, log entry 3). -/
def Obligations.DispatchStepRunsKeyOperation : Prop :=
  ∀ (s : State) (c : Clock) (rest : List Clock) (i : Instr),
    s.stim = c :: rest → c.pins.rst = false → c.pins.tick = false → c.fStep = true →
    s.ph = 6#3 → decode s.cfg ⟨.key, s.ev⟩ = .ok i →
    step s = exec i { s with pins := c.pins, stim := rest }

/-- R232, R234, R71: when the next clock brings `tick` and no `rst`, a step is `TICK`; an F step on the same edge stays in
front of the queue, without the tick, and follows it.  The order is the spec's; one clock as two model steps, by putting the
F step back in front of the queue, is the model's choice, log entry 3 (DESIGN CHOICE). -/
def Obligations.StepRunsTickFirst : Prop :=
  ∀ (s : State) (c : Clock) (rest : List Clock),
    s.stim = c :: rest → c.pins.rst = false → c.pins.tick = true →
    (c.fStep = false → step s = exec .tick { s with pins := c.pins, stim := rest }) ∧
    (c.fStep = true →
      step s = exec .tick
        { s with pins := c.pins, stim := { pins := { c.pins with tick := false }, fStep := true } :: rest })

/-- R232: in a clock with `tick = 0` (no `rst`, no F step) nothing happens: only the clock is taken
(the queue of clocks is the model's choice, log entry 3). -/
def Obligations.ClockWithoutEventChangesNothing : Prop :=
  ∀ (s : State) (c : Clock) (rest : List Clock),
    s.cfg.Legal → s.stim = c :: rest → c.pins.rst = false → c.pins.tick = false → c.fStep = false →
    step s = .next { s with pins := c.pins, stim := rest }

/-- R77 (log entry 4): with nothing queued, the step is the one of the environment's own next clock, whatever it is. -/
def Obligations.UnqueuedClockIsTheEnvironments : Prop :=
  ∀ s : State, s.stim = [] →
    step s = step { s with stim := [Config.freeClock s.drawn], drawn := s.drawn + 1 }

/-! ## The encoder -/

/-- R130: a digit character selects `ENCODE.DIGIT`, and its logical pattern is its table entry; no register is written.  The
result is read on `encOut`, the encoder's output net, the model's own field and choice (log entry 6, DESIGN CHOICE). -/
def Obligations.EncodeDigitGivesTableEntry : Prop :=
  ∀ (s : State) (ch : Byte) (d : Fin 10), s.cfg.Legal → isDigit ch = true → val ch = d →
    decodeChar ch = .encodeDigit d ∧
    exec (.encodeDigit d) s = .next { s with encOut := s.cfg.segTable.get d }

/-- R131: the pattern of any other code is blank, with no fault; no register is written.  The result is read on
`encOut`, the model's own field and choice (log entry 6, DESIGN CHOICE). -/
def Obligations.EncodeBlankGivesNoSegment : Prop :=
  ∀ (s : State) (ch : Byte), s.cfg.Legal → (ch < 0x30#8 ∨ 0x39#8 < ch) →
    decodeChar ch = .encodeBlank ch ∧ exec (.encodeBlank ch) s = .next { s with encOut := 0x00#8 }

/-- R132: the two cases partition the 256 values, exactly ten under `ENCODE.DIGIT`; the encoder is total. -/
def Obligations.EncoderCasesPartition : Prop :=
  (∀ (c : Config) (ch : Byte),
    (isDigit ch = true ∧ ∃ d : Fin 10, ch = chr d ∧ decode c ⟨.char, ch⟩ = .ok (.encodeDigit d)) ∨
    (isDigit ch = false ∧ decode c ⟨.char, ch⟩ = .ok (.encodeBlank ch))) ∧
  ((List.range 256).filter fun n => isDigit (BitVec.ofNat 8 n)).length = 10

/-! ## The display refresher -/

/-- R140: `TICK` in any state.  On the refresh branch the counter returns to 0, the cursor flips, and the latch takes the
complement of what the encoder gives for the slot the new cursor names; on the count branch the counter takes the low
`CNT_W` bits of the sum, which lose nothing while the counter is in range, and nothing else changes.
`encOut` is the encoder's output net, the model's own field and choice (log entry 6, DESIGN CHOICE). -/
def Obligations.TickRefreshesOrCounts : Prop :=
  ∀ s : State, s.cfg.Legal →
    (s.cnt + 1 = s.cfg.th →
      ∃ p, exec (decodeChar (memRead s.ds (~~~s.cur))) s = .next { s with encOut := p } ∧
        exec .tick s = .next { s with cnt := 0, cur := ~~~s.cur, segN := ~~~p, encOut := p }) ∧
    (s.cnt + 1 ≠ s.cfg.th → exec .tick s = .next { s with cnt := (s.cnt + 1) % 2 ^ s.cfg.cntW }) ∧
    (s.cnt + 1 < s.cfg.th → (s.cnt + 1) % 2 ^ s.cfg.cntW = s.cnt + 1)

/-- R141: over any trace without a reset, with any F steps between the ticks, the counter and the cursor are those of the
number of ticks alone, and so is the number of refreshes. -/
def Obligations.TickCountLaw : Prop :=
  ∀ (s : State) (ls : List Line), Inv s → NoReset ls →
    ∃ t, runLines ls s = .next t ∧
      t.cnt = (s.cnt + tickCount ls) % s.cfg.th ∧
      t.cur = s.cur ^^^ BitVec.ofNat 1 ((s.cnt + tickCount ls) / s.cfg.th % 2) ∧
      refreshCount ls s = (s.cnt + tickCount ls) / s.cfg.th

/-- R142: over any trace without a reset, the latch keeps its value until a refresh, and after one it is the complement of
the encoding of what `ds[cur]` held at the most recent refresh. -/
def Obligations.LatchShowsLastRefresh : Prop :=
  ∀ (s : State) (ls : List Line), Inv s → NoReset ls →
    ∃ t, runLines ls s = .next t ∧
      (refreshCount ls s = 0 → t.segN = s.segN ∧ t.cur = s.cur) ∧
      (refreshCount ls s ≠ 0 →
        ∃ l1 l2 u v, ls = l1 ++ .tick :: l2 ∧ runLines l1 s = .next u ∧ u.cnt + 1 = u.cfg.th ∧
          runLine .tick u = .next v ∧ runLines l2 v = .next t ∧ refreshCount l2 v = 0 ∧
          t.segN = ~~~(segEncode s.cfg (memRead u.ds t.cur)))

/-- R270: with no further write, the character of either slot is on the segment lines, with the select line naming that
slot, after at most `2*TH` ticks. -/
def Obligations.SlotShownWithinTwoPeriods : Prop :=
  ∀ (s : State) (i : Bit), Inv s →
    ∃ k t, 1 ≤ k ∧ k ≤ 2 * s.cfg.th ∧ runLines (ticks k) s = .next t ∧
      dsel t = i ∧ segLines t = ~~~(segEncode s.cfg (memRead s.ds i)) ∧ t.ds = s.ds

/-! ## The keypad scanner -/

/-- R164: the key of the lowest column that reads 0, `NOKEY` when none does; always `NOKEY` or a key code. -/
def Obligations.LowestLowColumnWins : Prop :=
  ∀ (c : Config) (r : Fin 4) (q : Nibble),
    (q.getLsbD 0 = false → resolve c r q = c.keyAt r 0) ∧
    (q.getLsbD 0 = true → q.getLsbD 1 = false → resolve c r q = c.keyAt r 1) ∧
    (q.extractLsb' 0 2 = 0b11#2 → q.getLsbD 2 = false → resolve c r q = c.keyAt r 2) ∧
    (q.extractLsb' 0 3 = 0b111#3 → q.getLsbD 3 = false → resolve c r q = c.keyAt r 3) ∧
    (q = 0b1111#4 → resolve c r q = 0x00#8) ∧
    (c.Legal → resolve c r q = 0x00#8 ∨ resolve c r q ∈ keyCodes)

/-- R160: `ROW0` starts a new scan result from the columns sampled with row 0 low; the old result is not looked at. -/
def Obligations.Row0StartsNewScan : Prop :=
  ∀ s : State, s.cfg.Legal → s.ph = 0#3 →
    rowN s = 0b1110#4 ∧ exec .row0 s = .next { s with rk := resolve s.cfg 0 s.pins.colN, ph := 1#3 }

/-- R161, R162, R163: each later row fills the scan result only if it is still `NOKEY`, with its own row low; after `ROW3`
all rows are high. -/
def Obligations.LaterRowsKeepEarlierKey : Prop :=
  ∀ s : State, s.cfg.Legal →
    (s.ph = 1#3 → rowN s = 0b1101#4 ∧ exec .row1 s = .next
      { s with rk := if s.rk = 0x00#8 then resolve s.cfg 1 s.pins.colN else s.rk, ph := 2#3 }) ∧
    (s.ph = 2#3 → rowN s = 0b1011#4 ∧ exec .row2 s = .next
      { s with rk := if s.rk = 0x00#8 then resolve s.cfg 2 s.pins.colN else s.rk, ph := 3#3 }) ∧
    (s.ph = 3#3 → rowN s = 0b0111#4 ∧ ∃ t, exec .row3 s = .next t ∧ rowN t = 0b1111#4 ∧
      t = { s with rk := if s.rk = 0x00#8 then resolve s.cfg 3 s.pins.colN else s.rk, ph := 4#3 })

/-- R165: the scan result is the key of the lowest row that did not read `1111`, `NOKEY` if there is none: whatever the
state before, and whatever ticks fall between the row steps. -/
def Obligations.ScanResultLaw : Prop :=
  ∀ (s : State) (q : Fin 4 → Nibble) (a b c : Nat), s.cfg.Legal → s.ph = 0#3 →
    ∃ t, runLines ([.fCol (q 0)] ++ ticks a ++ [.fCol (q 1)] ++ ticks b ++ [.fCol (q 2)] ++ ticks c ++ [.fCol (q 3)]) s
        = .next t ∧
      t.ph = 4#3 ∧ t.ds = s.ds ∧ t.prev = s.prev ∧ t.last = s.last ∧ t.ev = s.ev ∧ t.tx = s.tx ∧
      t.rk = (if q 0 ≠ 0b1111#4 then resolve s.cfg 0 (q 0)
        else if q 1 ≠ 0b1111#4 then resolve s.cfg 1 (q 1)
        else if q 2 ≠ 0b1111#4 then resolve s.cfg 2 (q 2)
        else if q 3 ≠ 0b1111#4 then resolve s.cfg 3 (q 3)
        else 0x00#8)

/-- R168, R169: on the ideal keypad with contacts that stay as they are for the scan, the result is the key of the closed
contact with the smallest position index `4*r + c`, `NOKEY` if none is closed. -/
def Obligations.IdealScanPicksLowestPosition : Prop :=
  ∀ (s : State) (down : Fin 4 → Fin 4 → Bool), s.cfg.Legal → s.ph = 0#3 →
    let q := idealColumns down
    ∃ t, runLines [.fCol (q 0), .fCol (q 1), .fCol (q 2), .fCol (q 3)] s = .next t ∧
      ((∀ r col, down r col = false) → t.rk = 0x00#8) ∧
      (∀ r col, down r col = true →
        (∀ r' col', down r' col' = true → 4 * r.val + col.val ≤ 4 * r'.val + col'.val) →
        t.rk = s.cfg.keyAt r col)

/-- R170: `SETTLE` changes nothing but `ph`, with all rows high. -/
def Obligations.SettleOnlyAdvances : Prop :=
  ∀ s : State, s.cfg.Legal → s.ph = 4#3 → rowN s = 0b1111#4 ∧ exec .settle s = .next { s with ph := 5#3 }

/-! ## The debounce filter -/

/-- R181: the three branches of `FILTER`, with all rows high. -/
def Obligations.FilterDecides : Prop :=
  ∀ s : State, s.cfg.Legal → s.ph = 5#3 →
    rowN s = 0b1111#4 ∧
    (s.rk = 0x00#8 →
      exec .filter s = .next { s with prev := s.rk, last := 0x00#8, ev := 0x00#8, ph := 0#3 }) ∧
    (s.rk ≠ 0x00#8 → s.rk = s.prev → s.rk ≠ s.last →
      exec .filter s = .next { s with prev := s.rk, last := s.rk, ev := s.rk, ph := 6#3 }) ∧
    (s.rk ≠ 0x00#8 → (s.rk ≠ s.prev ∨ s.rk = s.last) →
      exec .filter s = .next { s with prev := s.rk, ev := 0x00#8, ph := 0#3 })

/-- R182: over two scan cycles, an event in the second means both scans returned its key; from the re-armed filter the first
cycle emits nothing and the second emits its key when the two agree; an isolated read emits nothing. -/
def Obligations.EventNeedsTwoAgreeingScans : Prop :=
  ∀ (s : State) (a b : Fin 4 → Nibble), Inv s → s.ph = 0#3 →
    ∃ u t, cycle a s = .next u ∧ cycle b u = .next t ∧ t.ph = 0#3 ∧
      (t.ev ≠ 0x00#8 → u.rk = t.ev ∧ t.rk = t.ev) ∧
      (Rearmed s → u.ev = 0x00#8 ∧ (u.rk = t.rk → t.ev = t.rk) ∧ (t.rk = 0x00#8 → t.ev = 0x00#8))

/-- R183 (its law): in the log of any scan cycles, between two events for one key there is a cycle whose scan returned
`NOKEY` or an event for a different key. -/
def Obligations.NoRepeatWithoutReleaseOrOtherKey : Prop :=
  ∀ (s : State) (qs : List (Fin 4 → Nibble)), Inv s → s.ph = 0#3 →
    let log := cycleLog qs s
    log.length = qs.length ∧
    ∀ (i j : Nat) (hj : j < log.length) (hi : i < j), (log[i]'(by omega)).2 ≠ 0x00#8 →
      log[j].2 = (log[i]'(by omega)).2 →
      ∃ (m : Nat) (hm : m < j), i < m ∧
        ((log[m]'(by omega)).1 = 0x00#8 ∨
          ((log[m]'(by omega)).2 ≠ 0x00#8 ∧ (log[m]'(by omega)).2 ≠ log[j].2))

/-- R183 (its `HOLD`), R185: a key held for `n` scans from the re-armed filter is accepted once, at the second scan, and
then ignored, for every `n`; a digit is handed over once. -/
def Obligations.HeldKeyAcceptedOnce : Prop :=
  ∀ (s : State) (k : Byte) (n : Nat), Inv s → Rearmed s → k ∈ keyCodes → 2 ≤ n →
    ∃ v u t, hold k 1 s = .next v ∧ v.ev = 0x00#8 ∧ v.ds = s.ds ∧ v.tx = s.tx ∧
      hold k 2 s = .next u ∧ u.ev = k ∧ u.tx = (if isDigit k then s.tx ++ [k] else s.tx) ∧
      hold k n s = .next t ∧ t.ds = u.ds ∧ t.tx = u.tx ∧ t.last = k ∧ (2 < n → t.ev = 0x00#8)

/-- R184: one scan cycle that returns `NOKEY` re-arms the filter, emits nothing and leaves the number alone; from there any
key is accepted at its second read. -/
def Obligations.EmptyScanRearms : Prop :=
  ∀ (s : State) (k : Byte), Inv s → s.ph = 0#3 → k ∈ keyCodes →
    ∃ t u, scan [] s = .next t ∧ Rearmed t ∧ t.ev = 0x00#8 ∧ t.ds = s.ds ∧ t.tx = s.tx ∧
      hold k 2 t = .next u ∧ u.ev = k

/-- R186: two scans of `J`, two of `K`, two of `J`, with no release between: the events are `J`, `K`, `J`. -/
def Obligations.RolloverAcceptsWithoutRelease : Prop :=
  ∀ (s : State) (j k : Byte), Inv s → Rearmed s → j ∈ keyCodes → k ∈ keyCodes → j ≠ k →
    ∃ a b c, hold j 2 s = .next a ∧ hold k 2 a = .next b ∧ hold j 2 b = .next c ∧
      a.ev = j ∧ b.ev = k ∧ c.ev = j

/-! ## The dispatcher and the serial echo -/

/-- R200: exactly one of the four cases applies, and `DISPATCH` is that case; all rows high, nothing offered. -/
def Obligations.DispatchRunsItsCase : Prop :=
  ∀ s : State, s.cfg.Legal → s.ph = 6#3 →
    rowN s = 0b1111#4 ∧ txValid s = false ∧
    (∀ d : Fin 10, s.ev = chr d →
      s.ev ≠ s.cfg.keyInc ∧ s.ev ≠ s.cfg.keyDec ∧ exec .dispatch s = exec (.dspDigit d) s) ∧
    (s.ev = s.cfg.keyInc →
      isDigit s.ev = false ∧ s.ev ≠ s.cfg.keyDec ∧ exec .dispatch s = exec .dspInc s) ∧
    (s.ev = s.cfg.keyDec →
      isDigit s.ev = false ∧ s.ev ≠ s.cfg.keyInc ∧ exec .dispatch s = exec .dspDec s) ∧
    (isDigit s.ev = false → s.ev ≠ s.cfg.keyInc → s.ev ≠ s.cfg.keyDec →
      exec .dispatch s = exec (.dspNop s.ev) s)

/-- R200, R74: a `DISPATCH` step completes whenever `ph = 6` and the store holds two digit characters (R23). -/
def Obligations.DispatchCompletes : Prop :=
  ∀ s : State, s.cfg.Legal → s.ph = 6#3 → isDigit s.ds.tens = true → isDigit s.ds.units = true →
    ∃ t, exec .dispatch s = .next t ∧ t.ev = s.ev ∧ (t.ph = 7#3 ↔ isDigit s.ev = true) ∧
      (isDigit s.ev = false → t.ph = 0#3)

/-- R201: the pressed digit becomes the units digit and the old units digit the tens digit, in one step; then the echo. -/
def Obligations.DigitRotatesIntoDisplay : Prop :=
  ∀ (s : State) (d : Fin 10), s.cfg.Legal → s.ph = 6#3 → s.ev = chr d →
    exec (.dspDigit d) s = .next { s with ds := { units := s.ev, tens := s.ds.units }, ph := 7#3 }

/-- R203: increment modulo 100, both slots written together, no echo. -/
def Obligations.IncrementIsModuloHundred : Prop :=
  ∀ s : State, s.cfg.Legal → s.ph = 6#3 → s.ev = s.cfg.keyInc →
    isDigit s.ds.tens = true → isDigit s.ds.units = true →
    let m := (val s.ds.tens * 10 + val s.ds.units + 1) % 100
    exec .dspInc s = .next { s with ds := { units := chr (m % 10), tens := chr (m / 10) }, ph := 0#3 }

/-- R204: decrement, wrapping below zero to 99, both slots written together, no echo. -/
def Obligations.DecrementWrapsToNinetyNine : Prop :=
  ∀ s : State, s.cfg.Legal → s.ph = 6#3 → s.ev = s.cfg.keyDec →
    isDigit s.ds.tens = true → isDigit s.ds.units = true →
    let n := val s.ds.tens * 10 + val s.ds.units
    let m := if n = 0 then 99 else n - 1
    exec .dspDec s = .next { s with ds := { units := chr (m % 10), tens := chr (m / 10) }, ph := 0#3 }

/-- R205: any other key only returns to the scan. -/
def Obligations.OtherKeyDoesNothing : Prop :=
  ∀ (s : State) (k : Byte), s.cfg.Legal → s.ph = 6#3 → s.ev = k →
    isDigit k = false → k ≠ s.cfg.keyInc → k ≠ s.cfg.keyDec →
    exec (.dspNop k) s = .next { s with ph := 0#3 }

/-- R202 (its round-trip laws): number and digit pair convert into each other and back. -/
def Obligations.NumberRoundTrip : Prop :=
  (∀ n, n < 100 → toInt (toDigits n) = some n) ∧
  (∀ d : DisplayState, isDigit d.tens = true → isDigit d.units = true →
    ∃ n, n < 100 ∧ toInt d = some n ∧ toDigits n = d)

/-- R204: decrement undoes increment and the reverse, for every value of the store. -/
def Obligations.IncrementAndDecrementUndo : Prop :=
  ∀ s : State, s.cfg.Legal → s.ph = 6#3 → isDigit s.ds.tens = true → isDigit s.ds.units = true →
    (s.ev = s.cfg.keyInc → ∃ t u, exec .dspInc s = .next t ∧
      exec .dspDec { t with ph := 6#3, ev := s.cfg.keyDec } = .next u ∧ u.ds = s.ds) ∧
    (s.ev = s.cfg.keyDec → ∃ t u, exec .dspDec s = .next t ∧
      exec .dspInc { t with ph := 6#3, ev := s.cfg.keyInc } = .next u ∧ u.ds = s.ds)

/-- R202 with U1 of spec/93_implementation_defined.md: `to_int` of a pair that is not two digit characters has no value, and
increment and decrement of such a pair fault (log entry 9). -/
def Obligations.NumberOfNonDigitsFaults : Prop :=
  ∀ s : State, s.cfg.Legal → s.ph = 6#3 → (isDigit s.ds.tens = false ∨ isDigit s.ds.units = false) →
    (s.ev = s.cfg.keyInc → exec .dspInc s = .fault .numberOutsideDomain) ∧
    (s.ev = s.cfg.keyDec → exec .dspDec s = .fault .numberOutsideDomain)

/-- R206: while `ph = 7` the byte `ev` is offered with all rows high; when the collaborator is ready exactly that byte is
appended to `TX` and F returns to the scan; otherwise nothing changes. -/
def Obligations.SendHandsOverOneByte : Prop :=
  ∀ s : State, s.cfg.Legal → s.ph = 7#3 →
    txValid s = true ∧ txData s = s.ev ∧ rowN s = 0b1111#4 ∧
    (s.pins.txReady = true → exec .send s = .next { s with tx := s.tx ++ [s.ev], ph := 0#3 }) ∧
    (s.pins.txReady = false → exec .send s = .next s)

/-- R206, R275, R246: while the collaborator is not ready, F waits in `SEND` through any number of its steps and any ticks
between them, and nothing of the foreground, the number or the trace changes; once it is ready, F's next step hands the
byte over and returns to the scan. -/
def Obligations.BlockedSendHoldsForeground : Prop :=
  ∀ (s : State) (ls : List Line), s.cfg.Legal → s.ph = 7#3 →
    (∀ l ∈ ls, l = .tick ∨ l = .fReady false) →
    ∃ t u, runLines ls s = .next t ∧ SameForeground s t ∧
      runLine (.fReady true) t = .next u ∧ u.tx = s.tx ++ [s.ev] ∧ u.ph = 0#3 ∧ u.ds = s.ds

/-- R207: after pressing one digit key and then another, the number is those two digits in that order and `TX` has grown by
the two bytes, whatever the number was, from any state with the filter re-armed. -/
def Obligations.LastTwoDigitsRotationLaw : Prop :=
  ∀ (s : State) (d0 d1 : Fin 10), Inv s → Rearmed s →
    ∃ t u, press (chr d0) s = .next t ∧ press (chr d1) t = .next u ∧
      u.ds = { units := chr d1, tens := chr d0 } ∧ u.tx = s.tx ++ [chr d0, chr d1] ∧ Rearmed u

/-- R203, R204, R111: pressing the increment key adds one modulo 100, pressing the decrement key subtracts one wrapping to
99, and neither sends a byte, from any state with the filter re-armed. -/
def Obligations.PressedFunctionKeysCount : Prop :=
  ∀ (s : State) (n : Nat), Inv s → Rearmed s → toInt s.ds = some n →
    (∃ t, press s.cfg.keyInc s = .next t ∧ toInt t.ds = some ((n + 1) % 100) ∧ t.tx = s.tx ∧ Rearmed t) ∧
    (∃ t, press s.cfg.keyDec s = .next t ∧ toInt t.ds = some ((n + 99) % 100) ∧ t.tx = s.tx ∧ Rearmed t)

/-! ## The whole machine -/

/-- R40, R20, R66: what every operation leaves alone when it answers a next state.  An operation of M changes nothing of
the foreground; an operation of F changes nothing of the display registers; each register of F is written by its owner
only; no operation writes the parameters or the environment's fields. -/
def Obligations.EachRegisterHasOneWriter : Prop :=
  ∀ (i : Instr) (s t : State), exec i s = .next t →
    (ofDisplay i = true → SameForeground s t) ∧
    (ofDisplay i = false → SameDisplay s t) ∧
    (i ≠ .tick → t.cur = s.cur ∧ t.cnt = s.cnt ∧ t.segN = s.segN) ∧
    (writesDisplay i = false → t.ds = s.ds) ∧
    (i ≠ .row0 → i ≠ .row1 → i ≠ .row2 → i ≠ .row3 → t.rk = s.rk) ∧
    (i ≠ .filter → t.prev = s.prev ∧ t.last = s.last ∧ t.ev = s.ev) ∧
    (i ≠ .send → t.tx = s.tx) ∧
    t.cfg = s.cfg ∧ t.pins = s.pins ∧ t.stim = s.stim ∧ t.drawn = s.drawn

/-- R70, R71: a `TICK` and an operation of F that does not write DisplayState give the same state in either order, and so
does any operation of F when the `TICK` is no refresh. -/
def Obligations.TickCommutesWithForeground : Prop :=
  ∀ (i : Instr) (s : State), ofDisplay i = false → (writesDisplay i = false ∨ s.cnt + 1 ≠ s.cfg.th) →
    andThen (exec .tick s) (exec i) = andThen (exec i s) (exec .tick)

/-- R246, R27: in every state of the invariant agent F has exactly one enabled operation, the one `ph` names, and `TICK` is
enabled. -/
def Obligations.ExactlyOneForegroundOperationEnabled : Prop :=
  ∀ s : State, Inv s →
    decodePh s.ph ∈ phaseOperations ∧ completes (exec .tick s) = true ∧
    ∀ i ∈ phaseOperations, (completes (exec i s) = true ↔ i = decodePh s.ph)

/-- R99, R246 with log entry 8: an operation that the decoded value of its space does not select is refused by name. -/
def Obligations.OperationNotSelectedIsRefused : Prop :=
  ∀ s : State, s.cfg.Legal →
    (∀ i ∈ phaseOperations, i ≠ decodePh s.ph → exec i s = .refused .notEnabled) ∧
    (∀ d : Fin 10, (s.ph ≠ 6#3 ∨ s.ev ≠ chr d) → exec (.dspDigit d) s = .refused .notEnabled) ∧
    ((s.ph ≠ 6#3 ∨ s.ev ≠ s.cfg.keyInc) → exec .dspInc s = .refused .notEnabled) ∧
    ((s.ph ≠ 6#3 ∨ s.ev ≠ s.cfg.keyDec) → exec .dspDec s = .refused .notEnabled) ∧
    (∀ k : Byte, (s.ph ≠ 6#3 ∨ s.ev ≠ k ∨ Instr.wellFormed s.cfg (.dspNop k) = false) →
      exec (.dspNop k) s = .refused .notEnabled) ∧
    (∀ ch : Byte, isDigit ch = true → exec (.encodeBlank ch) s = .refused .notEnabled)

/-- R246, R10: the hardware is not defined for parameters outside the constraints, and a model may refuse them.  That this
model refuses every operation and every step with them is the model's choice, log entry 12 (DESIGN CHOICE). -/
def Obligations.IllegalParametersAreRefused : Prop :=
  ∀ s : State, ¬ s.cfg.Legal →
    (∀ i : Instr, exec i s = .refused .parametersOutsideR10) ∧ step s = .refused .parametersOutsideR10

/-- R42, R43: the invariant holds right after reset, for every legal choice of parameters. -/
def Obligations.InvariantHoldsAfterReset : Prop :=
  Inv State.reset ∧ ∀ c : Config, c.Legal → Inv (State.initial c)

/-- R23, R25, R26, R43: every step keeps the invariant of the reachable states and the parameters, whatever the environment
does. -/
def Obligations.EveryStepKeepsInvariant : Prop :=
  ∀ s t : State, Inv s → step s = .next t → Inv t ∧ t.cfg = s.cfg

/-- R230, R246: from every state of the invariant a step is taken: nothing faults, nothing is refused, nothing is stuck. -/
def Obligations.StepsNeverStopUnderInvariant : Prop :=
  ∀ s : State, Inv s → ∃ t, step s = .next t
end

