-- ==== Sys2Proof/Laws/Chars.lean ====
section
/-! SUPPORT. Digit characters: the pattern of the operation map and the test `isdigit` name the same codes; conversions. -/

namespace Sys2Proof

/-- The pattern `0011dddd`, `dddd <= 9` (R99) takes exactly the digit characters (R15). -/
theorem digitOf_isSome : ∀ v : Byte, (digitOf v).isSome = isDigit v := by decide

/-- A code that fits the digit pattern is the character of its digit. -/
theorem chr_of_digitOf : ∀ v : Byte, ∀ d ∈ digitOf v, v = chr d := by decide

@[simp] theorem digitOf_chr : ∀ d : Fin 10, digitOf (chr d) = some d := by decide

@[simp] theorem isDigit_chr : ∀ d : Fin 10, isDigit (chr d) = true := by decide

@[simp] theorem val_chr : ∀ d : Fin 10, val (chr d) = d := by decide

/-- The two spellings of a digit's code, `0x30 + d` (R15) and `0x3` above `dddd` (R99). -/
theorem or_digit_eq_chr : ∀ d : Fin 10, 0x30#8 ||| BitVec.ofNat 8 d.val = chr d := by decide

theorem digitOf_eq_some {v : Byte} {d : Fin 10} : digitOf v = some d ↔ v = chr d :=
  ⟨fun h => chr_of_digitOf v d h, fun h => h ▸ digitOf_chr d⟩

theorem digitOf_eq_none {v : Byte} : digitOf v = none ↔ isDigit v = false := by
  rw [← digitOf_isSome, Option.isSome_eq_false_iff, Option.isNone_iff_eq_none]

/-- A digit character is the character of some digit. -/
theorem exists_chr_of_isDigit {v : Byte} (h : isDigit v = true) : ∃ d : Fin 10, v = chr d := by
  rw [← digitOf_isSome, Option.isSome_iff_exists] at h
  exact h.imp fun d hd => digitOf_eq_some.1 hd

theorem isDigit_chr_of_lt {n : Nat} (h : n < 10) : isDigit (chr n) = true := isDigit_chr ⟨n, h⟩

theorem val_chr_of_lt {n : Nat} (h : n < 10) : val (chr n) = n := val_chr ⟨n, h⟩

theorem val_lt_of_isDigit {v : Byte} (h : isDigit v = true) : val v < 10 := by
  obtain ⟨d, rfl⟩ := exists_chr_of_isDigit h
  simp

/-- A digit character is the character of its value. -/
theorem chr_val_of_isDigit {v : Byte} (h : isDigit v = true) : chr (val v) = v := by
  obtain ⟨d, rfl⟩ := exists_chr_of_isDigit h
  simp

theorem isDigit_of_mem : ∀ k ∈ functionKeyCodes, isDigit k = false := by decide

theorem isDigit_noKey : isDigit noKey = false := by decide

theorem noKey_notMem_keyCodes : noKey ∉ keyCodes := by decide

/-- A key code is a digit key's or a function key's. -/
theorem mem_keyCodes_of_isDigit {k : Byte} (h : isDigit k = true) : k ∈ keyCodes := by
  obtain ⟨d, rfl⟩ := exists_chr_of_isDigit h
  revert d
  decide

/-- The register `cnt` is wide enough for every value below the threshold (R25). -/
theorem Config.th_le_two_pow_cntW (c : Config) : c.th ≤ 2 ^ c.cntW := by
  unfold Config.cntW
  split
  · simpa using ‹c.th ≤ 2›
  · have := Nat.lt_log2_self (n := c.th - 1)
    omega

end Sys2Proof
end

