-- ==== Sys2Proof/Laws/State.lean ====
section
/-! SUPPORT. The value of every field after each update of the state. -/

namespace Sys2Proof.Machine

@[simp] theorem goTo_cfg (s : State) (p : PhaseCode) : (goTo s p).cfg = s.cfg := rfl
@[simp] theorem goTo_ds (s : State) (p : PhaseCode) : (goTo s p).ds = s.ds := rfl
@[simp] theorem goTo_cur (s : State) (p : PhaseCode) : (goTo s p).cur = s.cur := rfl
@[simp] theorem goTo_cnt (s : State) (p : PhaseCode) : (goTo s p).cnt = s.cnt := rfl
@[simp] theorem goTo_segN (s : State) (p : PhaseCode) : (goTo s p).segN = s.segN := rfl
@[simp] theorem goTo_ph (s : State) (p : PhaseCode) : (goTo s p).ph = p := rfl
@[simp] theorem goTo_rk (s : State) (p : PhaseCode) : (goTo s p).rk = s.rk := rfl
@[simp] theorem goTo_prev (s : State) (p : PhaseCode) : (goTo s p).prev = s.prev := rfl
@[simp] theorem goTo_last (s : State) (p : PhaseCode) : (goTo s p).last = s.last := rfl
@[simp] theorem goTo_ev (s : State) (p : PhaseCode) : (goTo s p).ev = s.ev := rfl
@[simp] theorem goTo_tx (s : State) (p : PhaseCode) : (goTo s p).tx = s.tx := rfl
@[simp] theorem goTo_encOut (s : State) (p : PhaseCode) : (goTo s p).encOut = s.encOut := rfl
@[simp] theorem goTo_pins (s : State) (p : PhaseCode) : (goTo s p).pins = s.pins := rfl
@[simp] theorem goTo_stim (s : State) (p : PhaseCode) : (goTo s p).stim = s.stim := rfl
@[simp] theorem goTo_drawn (s : State) (p : PhaseCode) : (goTo s p).drawn = s.drawn := rfl

@[simp] theorem memWrite_cfg (s : State) (t u : Byte) : (memWrite s t u).cfg = s.cfg := rfl
@[simp] theorem memWrite_ds (s : State) (t u : Byte) : (memWrite s t u).ds = { units := u, tens := t } := rfl
@[simp] theorem memWrite_cur (s : State) (t u : Byte) : (memWrite s t u).cur = s.cur := rfl
@[simp] theorem memWrite_cnt (s : State) (t u : Byte) : (memWrite s t u).cnt = s.cnt := rfl
@[simp] theorem memWrite_segN (s : State) (t u : Byte) : (memWrite s t u).segN = s.segN := rfl
@[simp] theorem memWrite_ph (s : State) (t u : Byte) : (memWrite s t u).ph = s.ph := rfl
@[simp] theorem memWrite_rk (s : State) (t u : Byte) : (memWrite s t u).rk = s.rk := rfl
@[simp] theorem memWrite_prev (s : State) (t u : Byte) : (memWrite s t u).prev = s.prev := rfl
@[simp] theorem memWrite_last (s : State) (t u : Byte) : (memWrite s t u).last = s.last := rfl
@[simp] theorem memWrite_ev (s : State) (t u : Byte) : (memWrite s t u).ev = s.ev := rfl
@[simp] theorem memWrite_tx (s : State) (t u : Byte) : (memWrite s t u).tx = s.tx := rfl
@[simp] theorem memWrite_encOut (s : State) (t u : Byte) : (memWrite s t u).encOut = s.encOut := rfl
@[simp] theorem memWrite_pins (s : State) (t u : Byte) : (memWrite s t u).pins = s.pins := rfl
@[simp] theorem memWrite_stim (s : State) (t u : Byte) : (memWrite s t u).stim = s.stim := rfl
@[simp] theorem memWrite_drawn (s : State) (t u : Byte) : (memWrite s t u).drawn = s.drawn := rfl

@[simp] theorem handOver_cfg (s : State) (b : Byte) : (handOver s b).cfg = s.cfg := rfl
@[simp] theorem handOver_ds (s : State) (b : Byte) : (handOver s b).ds = s.ds := rfl
@[simp] theorem handOver_cur (s : State) (b : Byte) : (handOver s b).cur = s.cur := rfl
@[simp] theorem handOver_cnt (s : State) (b : Byte) : (handOver s b).cnt = s.cnt := rfl
@[simp] theorem handOver_segN (s : State) (b : Byte) : (handOver s b).segN = s.segN := rfl
@[simp] theorem handOver_ph (s : State) (b : Byte) : (handOver s b).ph = s.ph := rfl
@[simp] theorem handOver_rk (s : State) (b : Byte) : (handOver s b).rk = s.rk := rfl
@[simp] theorem handOver_prev (s : State) (b : Byte) : (handOver s b).prev = s.prev := rfl
@[simp] theorem handOver_last (s : State) (b : Byte) : (handOver s b).last = s.last := rfl
@[simp] theorem handOver_ev (s : State) (b : Byte) : (handOver s b).ev = s.ev := rfl
@[simp] theorem handOver_tx (s : State) (b : Byte) : (handOver s b).tx = s.tx ++ [b] := rfl
@[simp] theorem handOver_encOut (s : State) (b : Byte) : (handOver s b).encOut = s.encOut := rfl
@[simp] theorem handOver_pins (s : State) (b : Byte) : (handOver s b).pins = s.pins := rfl
@[simp] theorem handOver_stim (s : State) (b : Byte) : (handOver s b).stim = s.stim := rfl
@[simp] theorem handOver_drawn (s : State) (b : Byte) : (handOver s b).drawn = s.drawn := rfl

@[simp] theorem driveEncoder_cfg (s : State) (p : Byte) : (driveEncoder s p).cfg = s.cfg := rfl
@[simp] theorem driveEncoder_ds (s : State) (p : Byte) : (driveEncoder s p).ds = s.ds := rfl
@[simp] theorem driveEncoder_cur (s : State) (p : Byte) : (driveEncoder s p).cur = s.cur := rfl
@[simp] theorem driveEncoder_cnt (s : State) (p : Byte) : (driveEncoder s p).cnt = s.cnt := rfl
@[simp] theorem driveEncoder_segN (s : State) (p : Byte) : (driveEncoder s p).segN = s.segN := rfl
@[simp] theorem driveEncoder_ph (s : State) (p : Byte) : (driveEncoder s p).ph = s.ph := rfl
@[simp] theorem driveEncoder_rk (s : State) (p : Byte) : (driveEncoder s p).rk = s.rk := rfl
@[simp] theorem driveEncoder_prev (s : State) (p : Byte) : (driveEncoder s p).prev = s.prev := rfl
@[simp] theorem driveEncoder_last (s : State) (p : Byte) : (driveEncoder s p).last = s.last := rfl
@[simp] theorem driveEncoder_ev (s : State) (p : Byte) : (driveEncoder s p).ev = s.ev := rfl
@[simp] theorem driveEncoder_tx (s : State) (p : Byte) : (driveEncoder s p).tx = s.tx := rfl
@[simp] theorem driveEncoder_encOut (s : State) (p : Byte) : (driveEncoder s p).encOut = p := rfl
@[simp] theorem driveEncoder_pins (s : State) (p : Byte) : (driveEncoder s p).pins = s.pins := rfl
@[simp] theorem driveEncoder_stim (s : State) (p : Byte) : (driveEncoder s p).stim = s.stim := rfl
@[simp] theorem driveEncoder_drawn (s : State) (p : Byte) : (driveEncoder s p).drawn = s.drawn := rfl

@[simp] theorem queueFirst_cfg (s : State) (c : Clock) : (queueFirst s c).cfg = s.cfg := rfl
@[simp] theorem queueFirst_ds (s : State) (c : Clock) : (queueFirst s c).ds = s.ds := rfl
@[simp] theorem queueFirst_cur (s : State) (c : Clock) : (queueFirst s c).cur = s.cur := rfl
@[simp] theorem queueFirst_cnt (s : State) (c : Clock) : (queueFirst s c).cnt = s.cnt := rfl
@[simp] theorem queueFirst_segN (s : State) (c : Clock) : (queueFirst s c).segN = s.segN := rfl
@[simp] theorem queueFirst_ph (s : State) (c : Clock) : (queueFirst s c).ph = s.ph := rfl
@[simp] theorem queueFirst_rk (s : State) (c : Clock) : (queueFirst s c).rk = s.rk := rfl
@[simp] theorem queueFirst_prev (s : State) (c : Clock) : (queueFirst s c).prev = s.prev := rfl
@[simp] theorem queueFirst_last (s : State) (c : Clock) : (queueFirst s c).last = s.last := rfl
@[simp] theorem queueFirst_ev (s : State) (c : Clock) : (queueFirst s c).ev = s.ev := rfl
@[simp] theorem queueFirst_tx (s : State) (c : Clock) : (queueFirst s c).tx = s.tx := rfl
@[simp] theorem queueFirst_encOut (s : State) (c : Clock) : (queueFirst s c).encOut = s.encOut := rfl
@[simp] theorem queueFirst_pins (s : State) (c : Clock) : (queueFirst s c).pins = s.pins := rfl
@[simp] theorem queueFirst_stim (s : State) (c : Clock) : (queueFirst s c).stim = c :: s.stim := rfl
@[simp] theorem queueFirst_drawn (s : State) (c : Clock) : (queueFirst s c).drawn = s.drawn := rfl

@[simp] theorem countUp_cfg (s : State) : (countUp s).cfg = s.cfg := rfl
@[simp] theorem countUp_ds (s : State) : (countUp s).ds = s.ds := rfl
@[simp] theorem countUp_cur (s : State) : (countUp s).cur = s.cur := rfl
@[simp] theorem countUp_cnt (s : State) : (countUp s).cnt = (s.cnt + 1) % 2 ^ s.cfg.cntW := rfl
@[simp] theorem countUp_segN (s : State) : (countUp s).segN = s.segN := rfl
@[simp] theorem countUp_ph (s : State) : (countUp s).ph = s.ph := rfl
@[simp] theorem countUp_rk (s : State) : (countUp s).rk = s.rk := rfl
@[simp] theorem countUp_prev (s : State) : (countUp s).prev = s.prev := rfl
@[simp] theorem countUp_last (s : State) : (countUp s).last = s.last := rfl
@[simp] theorem countUp_ev (s : State) : (countUp s).ev = s.ev := rfl
@[simp] theorem countUp_tx (s : State) : (countUp s).tx = s.tx := rfl
@[simp] theorem countUp_encOut (s : State) : (countUp s).encOut = s.encOut := rfl
@[simp] theorem countUp_pins (s : State) : (countUp s).pins = s.pins := rfl
@[simp] theorem countUp_stim (s : State) : (countUp s).stim = s.stim := rfl
@[simp] theorem countUp_drawn (s : State) : (countUp s).drawn = s.drawn := rfl

@[simp] theorem refresh_cfg (s : State) : (refresh s).cfg = s.cfg := rfl
@[simp] theorem refresh_ds (s : State) : (refresh s).ds = s.ds := rfl
@[simp] theorem refresh_cur (s : State) : (refresh s).cur = ~~~s.cur := rfl
@[simp] theorem refresh_cnt (s : State) : (refresh s).cnt = 0 := rfl
@[simp] theorem refresh_segN (s : State) : (refresh s).segN = ~~~(segEncode s.cfg (memRead s.ds (~~~s.cur))) := rfl
@[simp] theorem refresh_ph (s : State) : (refresh s).ph = s.ph := rfl
@[simp] theorem refresh_rk (s : State) : (refresh s).rk = s.rk := rfl
@[simp] theorem refresh_prev (s : State) : (refresh s).prev = s.prev := rfl
@[simp] theorem refresh_last (s : State) : (refresh s).last = s.last := rfl
@[simp] theorem refresh_ev (s : State) : (refresh s).ev = s.ev := rfl
@[simp] theorem refresh_tx (s : State) : (refresh s).tx = s.tx := rfl
@[simp] theorem refresh_encOut (s : State) : (refresh s).encOut = segEncode s.cfg (memRead s.ds (~~~s.cur)) := rfl
@[simp] theorem refresh_pins (s : State) : (refresh s).pins = s.pins := rfl
@[simp] theorem refresh_stim (s : State) : (refresh s).stim = s.stim := rfl
@[simp] theorem refresh_drawn (s : State) : (refresh s).drawn = s.drawn := rfl

/-- The parameters after reset are those the hardware was built with. -/
@[simp] theorem initial_cfg (c : Config) : (State.initial c).cfg = c := rfl

end Sys2Proof.Machine
end

