-- ==== Sys2Proof/Laws/Ops.lean ====
section
/-! SUPPORT. What each shared operation can do, said once. -/

namespace Sys2Proof.Machine

theorem andThen_eq_next {r : Result} {k : State → Result} {t : State} :
    andThen r k = .next t ↔ ∃ u, r = .next u ∧ k u = .next t := by
  cases r <;> simp [andThen]

@[simp] theorem andThen_next (s : State) (k : State → Result) : andThen (.next s) k = k s := rfl

/-- An operation answers a next state only when the parameters are legal and it is enabled. -/
theorem gate_eq_next {s t : State} {e : Bool} {r : Result} :
    gate s e r = .next t ↔ s.cfg.Legal ∧ e = true ∧ r = .next t := by
  by_cases hc : s.cfg.Legal <;> cases e <;> simp [gate, hc]

/-- The same for an operation whose answer is a next state. -/
theorem gate_next_eq_next {s t u : State} {e : Bool} :
    gate s e (.next u) = .next t ↔ s.cfg.Legal ∧ e = true ∧ t = u := by
  rw [gate_eq_next, Host.Outcome.next.injEq, eq_comm (a := u)]

/-- The gate is open. -/
theorem gate_open {s : State} {e : Bool} (r : Result) (hc : s.cfg.Legal) (he : e = true) : gate s e r = r := by
  simp only [gate, if_pos hc, he, if_true]

/-- The gate is shut by the operation's own condition. -/
theorem gate_shut {s : State} {e : Bool} (r : Result) (hc : s.cfg.Legal) (he : e = false) :
    gate s e r = .refused .notEnabled := by
  simp [gate, if_pos hc, he]

/-- The gate is shut by the parameters. -/
theorem gate_illegal {s : State} (e : Bool) (r : Result) (hc : ¬ s.cfg.Legal) :
    gate s e r = .refused .parametersOutsideR10 := if_neg hc

/-- A read after the joint write gives what was written (R64, R65). -/
theorem memRead_memWrite (s : State) (t u : Byte) (i : Bit) :
    memRead (memWrite s t u).ds i = if i = 0#1 then u else t := rfl

@[simp] theorem takeClock_queueFirst (s : State) (c : Clock) : takeClock (queueFirst s c) = (c, s) := rfl

/-- With nothing queued the clock is the environment's own, and its count advances. -/
theorem takeClock_empty {s : State} (h : s.stim = []) :
    takeClock s = (Config.freeClock s.drawn, { s with drawn := s.drawn + 1 }) := by
  simp [takeClock, h]

/-- Everything taking a clock can do: only the queue and the count of draws change. -/
theorem takeClock_cases (s : State) :
    (∃ c cs, s.stim = c :: cs ∧ takeClock s = (c, { s with stim := cs })) ∨
    (s.stim = [] ∧ takeClock s = (Config.freeClock s.drawn, { s with drawn := s.drawn + 1 })) := by
  unfold takeClock
  cases s.stim with
  | nil => exact .inr ⟨rfl, rfl⟩
  | cons c cs => exact .inl ⟨c, cs, rfl, rfl⟩

/-- Everything fetching can do: what is asked for, and a state that differs only in the environment's fields. -/
theorem fetch_cases (s : State) :
    ∃ p st n, (fetch s).2 = { s with pins := p, stim := st, drawn := n } ∧
      ((fetch s).1 = .reset ∨ (fetch s).1 = .op .tick ∨ (fetch s).1 = .op (decodePh s.ph) ∨ (fetch s).1 = .idle) := by
  obtain ⟨c, cs, -, h⟩ | ⟨-, h⟩ := takeClock_cases s <;>
    (simp only [fetch, h]
     split_ifs
     · exact ⟨_, _, _, rfl, .inl rfl⟩
     · exact ⟨_, _, _, rfl, .inr (.inl rfl)⟩
     · exact ⟨_, _, _, rfl, .inr (.inl rfl)⟩
     · exact ⟨_, _, _, rfl, .inr (.inr (.inl rfl))⟩
     · exact ⟨_, _, _, rfl, .inr (.inr (.inr rfl))⟩)

/-- Everything reset can do (R260). -/
theorem takeReset_eq_next {s t : State} :
    takeReset s = .next t ↔
      s.cfg.Legal ∧ t = { State.initial s.cfg with pins := s.pins, stim := s.stim, drawn := s.drawn } := by
  simp [takeReset, gate_next_eq_next]

/-- An idle clock changes nothing. -/
theorem takeIdle_eq_next {s t : State} : takeIdle s = .next t ↔ s.cfg.Legal ∧ t = s := by
  simp [takeIdle, gate_next_eq_next]

end Sys2Proof.Machine
end

