-- ==== Sys2Proof/Laws/Exec.lean ====
section
/-! SUPPORT. What each meaning can do, said once, and how a step reaches it. -/

namespace Sys2Proof.Machine

theorem execTick_eq_next {s t : State} :
    execTick s = .next t ↔ s.cfg.Legal ∧ t = if s.cnt + 1 = s.cfg.th then refresh s else countUp s := by
  simp [execTick, gate_next_eq_next]

theorem execRow0_eq_next {s t : State} :
    execRow0 s = .next t ↔
      s.cfg.Legal ∧ s.ph = 0#3 ∧ t = { s with rk := resolve s.cfg 0 s.pins.colN, ph := 1#3 } := by
  simp [execRow0, gate_next_eq_next, goTo]

theorem execRow1_eq_next {s t : State} :
    execRow1 s = .next t ↔ s.cfg.Legal ∧ s.ph = 1#3 ∧ t = { s with rk := keepOrResolve s 1, ph := 2#3 } := by
  simp [execRow1, gate_next_eq_next, goTo]

theorem execRow2_eq_next {s t : State} :
    execRow2 s = .next t ↔ s.cfg.Legal ∧ s.ph = 2#3 ∧ t = { s with rk := keepOrResolve s 2, ph := 3#3 } := by
  simp [execRow2, gate_next_eq_next, goTo]

theorem execRow3_eq_next {s t : State} :
    execRow3 s = .next t ↔ s.cfg.Legal ∧ s.ph = 3#3 ∧ t = { s with rk := keepOrResolve s 3, ph := 4#3 } := by
  simp [execRow3, gate_next_eq_next, goTo]

theorem execSettle_eq_next {s t : State} :
    execSettle s = .next t ↔ s.cfg.Legal ∧ s.ph = 4#3 ∧ t = { s with ph := 5#3 } := by
  simp [execSettle, gate_next_eq_next, goTo]

/-- The three branches of `FILTER`. -/
theorem execFilter_cases {s t : State} (h : execFilter s = .next t) :
    s.cfg.Legal ∧ s.ph = 5#3 ∧
      ((s.rk = noKey ∧ t = { s with prev := noKey, last := noKey, ev := noKey, ph := 0#3 }) ∨
       (s.rk ≠ noKey ∧ s.rk = s.prev ∧ s.rk ≠ s.last ∧
          t = { s with prev := s.rk, last := s.rk, ev := s.rk, ph := 6#3 }) ∨
       (s.rk ≠ noKey ∧ ¬ (s.rk = s.prev ∧ s.rk ≠ s.last) ∧ t = { s with prev := s.rk, ev := noKey, ph := 0#3 })) := by
  obtain ⟨hc, hp, h⟩ := gate_eq_next.1 h
  refine ⟨hc, by simpa using hp, ?_⟩
  split_ifs at h with h1 h2 <;> cases h
  · exact .inl ⟨h1, by simp [goTo, h1]⟩
  · obtain ⟨ha, hb⟩ : s.rk = s.prev ∧ s.rk ≠ s.last := by simpa [accepts] using h2
    exact .inr (.inl ⟨h1, ha, hb, rfl⟩)
  · exact .inr (.inr ⟨h1, by simpa [accepts] using h2, rfl⟩)

theorem execSend_eq_next {s t : State} :
    execSend s = .next t ↔
      s.cfg.Legal ∧ s.ph = 7#3 ∧
        t = if s.pins.txReady then { s with tx := s.tx ++ [s.ev], ph := 0#3 } else s := by
  simp [execSend, gate_next_eq_next, goTo, handOver]

theorem execDspDigit_eq_next {d : Fin 10} {s t : State} :
    execDspDigit d s = .next t ↔
      s.cfg.Legal ∧ s.ph = 6#3 ∧ s.ev = chr d ∧
        t = { s with ds := { units := s.ev, tens := s.ds.units }, ph := 7#3 } := by
  simp [execDspDigit, gate_next_eq_next, goTo, memWrite, and_assoc]

theorem toInt_eq_some {d : DisplayState} {n : Nat} :
    toInt d = some n ↔ isDigit d.tens = true ∧ isDigit d.units = true ∧ n = val d.tens * 10 + val d.units := by
  simp only [toInt, Bool.and_eq_true, Option.ite_none_right_eq_some, Option.some.injEq, and_assoc, eq_comm (b := n)]

theorem toInt_lt {d : DisplayState} {n : Nat} (h : toInt d = some n) : n < 100 := by
  obtain ⟨ht, hu, rfl⟩ := toInt_eq_some.1 h
  have := val_lt_of_isDigit ht
  have := val_lt_of_isDigit hu
  omega

/-- Changing the number: the pair had a value, and the digits of the new one are written together. -/
theorem changeNumber_eq_next {s t : State} {f : Nat → Nat} :
    changeNumber s f = .next t ↔ ∃ n, toInt s.ds = some n ∧ t = { s with ds := toDigits (f n), ph := 0#3 } := by
  unfold changeNumber
  cases toInt s.ds <;> simp [goTo, memWrite, eq_comm]

theorem execDspInc_eq_next {s t : State} :
    execDspInc s = .next t ↔
      s.cfg.Legal ∧ s.ph = 6#3 ∧ s.ev = s.cfg.keyInc ∧
        ∃ n, toInt s.ds = some n ∧ t = { s with ds := toDigits (increment n), ph := 0#3 } := by
  simp [execDspInc, gate_eq_next, changeNumber_eq_next, and_assoc]

theorem execDspDec_eq_next {s t : State} :
    execDspDec s = .next t ↔
      s.cfg.Legal ∧ s.ph = 6#3 ∧ s.ev = s.cfg.keyDec ∧
        ∃ n, toInt s.ds = some n ∧ t = { s with ds := toDigits (decrement n), ph := 0#3 } := by
  simp [execDspDec, gate_eq_next, changeNumber_eq_next, and_assoc]

theorem execDspNop_eq_next {k : Byte} {s t : State} :
    execDspNop k s = .next t ↔
      s.cfg.Legal ∧ s.ph = 6#3 ∧ s.ev = k ∧ isDigit k = false ∧ k ≠ s.cfg.keyInc ∧ k ≠ s.cfg.keyDec ∧
        t = { s with ph := 0#3 } := by
  simp [execDspNop, gate_next_eq_next, goTo, and_assoc]

/-- A legal `KEY_INC` or `KEY_DEC` is no digit. -/
theorem legal_keys_not_digit {c : Config} (h : c.Legal) : isDigit c.keyInc = false ∧ isDigit c.keyDec = false :=
  ⟨isDigit_of_mem _ h.2.2.2.2.1, isDigit_of_mem _ h.2.2.2.2.2.1⟩

/-- Every entry of a legal `KEYMAP` is a key code (R10, R93). -/
theorem legal_keyAt {c : Config} (h : c.Legal) (r col : Fin 4) : c.keyAt r col ∈ keyCodes := by
  refine of_decide_eq_true (List.all_eq_true.1 h.2.2.1 _ ?_)
  exact List.mem_map.2 ⟨(r, col), by revert r col; decide, rfl⟩

/-- Every key code stands at some position of a legal `KEYMAP` (R10, R93). -/
theorem legal_key_found {c : Config} (h : c.Legal) {k : Byte} (hk : k ∈ keyCodes) : ∃ r col, c.keyAt r col = k := by
  obtain ⟨p, -, hp⟩ := List.mem_map.1 (of_decide_eq_true (List.all_eq_true.1 h.2.2.2.1 _ hk))
  exact ⟨p.1, p.2, hp⟩

/-- `DISPATCH` performs the operation that space `KEY` selects for `ev` (R200). -/
theorem execDispatch_eq (s : State) : execDispatch s = exec (decodeKey s.cfg s.ev) s := by
  unfold execDispatch decodeKey
  cases digitOf s.ev with
  | some d => rfl
  | none => simp only; split_ifs <;> rfl

theorem execEncodeDigit_eq_next {d : Fin 10} {s t : State} :
    execEncodeDigit d s = .next t ↔ s.cfg.Legal ∧ t = { s with encOut := s.cfg.segPattern d } := by
  simp [execEncodeDigit, gate_next_eq_next, driveEncoder]

theorem execEncodeBlank_eq_next {ch : Byte} {s t : State} :
    execEncodeBlank ch s = .next t ↔ s.cfg.Legal ∧ isDigit ch = false ∧ t = { s with encOut := segBlank } := by
  simp [execEncodeBlank, gate_next_eq_next, driveEncoder]

/-- The encoder net after a refresh is what the `CHAR` operation of the character gives (R130, R131). -/
theorem exec_decodeChar {s : State} (hc : s.cfg.Legal) (ch : Byte) :
    exec (decodeChar ch) s = .next { s with encOut := segEncode s.cfg ch } := by
  unfold decodeChar segEncode
  cases h : digitOf ch with
  | some d => exact execEncodeDigit_eq_next.2 ⟨hc, rfl⟩
  | none => exact execEncodeBlank_eq_next.2 ⟨hc, digitOf_eq_none.1 h, rfl⟩

/-- A line whose clock is a `TICK`. -/
theorem runLine_tick (s : State) : runLine .tick s = execTick { s with pins := tickClock.pins } := rfl

/-- A line whose clock is one F step: the operation `ph` names, with the line's inputs. -/
theorem runLine_f (s : State) (l : Line) (h : l.clock.fStep = true) :
    runLine l s = exec (decodePh s.ph) { s with pins := l.clock.pins } := by
  cases l <;> first | rfl | exact absurd h (by decide)

theorem runLine_reset (s : State) : runLine .reset s = takeReset { s with pins := Line.reset.clock.pins } := rfl

theorem runLines_append (l1 l2 : List Line) (s : State) :
    runLines (l1 ++ l2) s = andThen (runLines l1 s) (runLines l2) := by
  induction l1 generalizing s with
  | nil => rfl
  | cons l ls ih =>
    simp only [List.cons_append, runLines]
    cases runLine l s with
    | next t => exact ih t
    | fault _ => rfl
    | refused _ => rfl

end Sys2Proof.Machine
end

