-- ==== Sys2Proof/Laws/PerInstr.lean ====
section
/-! SUPPORT. Facts stated of every operation of the table, one lemma a constructor. -/

namespace Sys2Proof.Laws.EncodeFits

/-- The code of an operation fits the width of its space (R90, R99), whatever the parameters. -/
def Statement (i : Instr) : Prop := ∀ c : Config, (encode c i).value.toNat < 2 ^ (encode c i).space.width

theorem tick : Statement .tick := fun _ => by simp [encode, Space.width]

theorem row0 : Statement .row0 := fun _ => by simp [encode, Space.width]

theorem row1 : Statement .row1 := fun _ => by simp [encode, Space.width]

theorem row2 : Statement .row2 := fun _ => by simp [encode, Space.width]

theorem row3 : Statement .row3 := fun _ => by simp [encode, Space.width]

theorem settle : Statement .settle := fun _ => by simp [encode, Space.width]

theorem filter : Statement .filter := fun _ => by simp [encode, Space.width]

theorem dispatch : Statement .dispatch := fun _ => by simp [encode, Space.width]

theorem send : Statement .send := fun _ => by simp [encode, Space.width]

theorem dspDigit (d : Fin 10) : Statement (.dspDigit d) := fun _ => BitVec.isLt _

theorem dspInc : Statement .dspInc := fun c => c.keyInc.isLt

theorem dspDec : Statement .dspDec := fun c => c.keyDec.isLt

theorem dspNop (key : Byte) : Statement (.dspNop key) := fun _ => key.isLt

theorem encodeDigit (d : Fin 10) : Statement (.encodeDigit d) := fun _ => BitVec.isLt _

theorem encodeBlank (ch : Byte) : Statement (.encodeBlank ch) := fun _ => ch.isLt

end Sys2Proof.Laws.EncodeFits
end

