-- ==== Sys2Proof/Laws/Trace.lean ====
section
/-! SUPPORT. What a step, a line of a trace and one scan cycle do, said once. -/

namespace Sys2Proof.Machine

/-- Everything a step can do: it is reset, `TICK`, the operation `ph` names, or nothing, on the state with the environment's
next clock taken. -/
theorem step_cases {s t : State} (h : step s = .next t) :
    ∃ p st n, let u := { s with pins := p, stim := st, drawn := n }
      takeReset u = .next t ∨ exec .tick u = .next t ∨ exec (decodePh u.ph) u = .next t ∨ takeIdle u = .next t := by
  obtain ⟨p, st, n, hu, he⟩ := fetch_cases s
  unfold step at h
  rcases hf : fetch s with ⟨e, u⟩
  rw [hf] at h hu he
  obtain rfl : u = _ := hu
  rcases he with rfl | rfl | rfl | rfl
  · exact ⟨p, st, n, .inl h⟩
  · exact ⟨p, st, n, .inr (.inl h)⟩
  · exact ⟨p, st, n, .inr (.inr (.inl h))⟩
  · exact ⟨p, st, n, .inr (.inr (.inr h))⟩

/-- A line that steps F performs the operation of the phase it meets, with the line's levels on the input ports. -/
theorem runLine_of_phase {s : State} {l : Line} {p : PhaseCode} (hf : l.clock.fStep = true) (hp : s.ph = p) :
    runLine l s = exec (decodePh p) { s with pins := l.clock.pins } := by
  rw [runLine_f s l hf, hp]

/-- The effect of `FILTER` as one state (R181). -/
theorem execFilter_eq {s : State} (hc : s.cfg.Legal) (hp : s.ph = 5#3) :
    execFilter s = .next
      { s with
        prev := s.rk
        last := if s.rk = noKey then noKey else if s.rk = s.prev ∧ s.rk ≠ s.last then s.rk else s.last
        ev := if s.rk ≠ noKey ∧ s.rk = s.prev ∧ s.rk ≠ s.last then s.rk else noKey
        ph := if s.rk ≠ noKey ∧ s.rk = s.prev ∧ s.rk ≠ s.last then 6#3 else 0#3 } := by
  unfold execFilter
  rw [gate_open _ hc (by simp [hp])]
  by_cases h1 : s.rk = noKey <;> by_cases h2 : s.rk = s.prev <;> by_cases h3 : s.rk = s.last <;>
    simp [accepts, goTo, h1, h2, h3] <;> simp_all

/-- The key a scan returns: the first row that gives one (R165). -/
def scanKey (c : Config) (q : Fin 4 → Nibble) : Byte :=
  if resolve c 0 (q 0) ≠ noKey then resolve c 0 (q 0)
  else if resolve c 1 (q 1) ≠ noKey then resolve c 1 (q 1)
  else if resolve c 2 (q 2) ≠ noKey then resolve c 2 (q 2)
  else resolve c 3 (q 3)

/-- Four row lines, whatever was in `rk` before (R160 to R163). -/
theorem runLines_rows {s : State} (hc : s.cfg.Legal) (hp : s.ph = 0#3) (q : Fin 4 → Nibble) :
    runLines [.fCol (q 0), .fCol (q 1), .fCol (q 2), .fCol (q 3)] s =
      .next { s with pins := (Line.fCol (q 3)).clock.pins, rk := scanKey s.cfg q, ph := 4#3 } := by
  have r0 : runLine (.fCol (q 0)) s = _ :=
    (runLine_of_phase rfl hp).trans (execRow0_eq_next.2 ⟨hc, hp, rfl⟩)
  have r1 : ∀ u : State, u.cfg.Legal → u.ph = 1#3 → runLine (.fCol (q 1)) u = .next _ := fun u h p =>
    (runLine_of_phase rfl p).trans (execRow1_eq_next.2 ⟨h, p, rfl⟩)
  have r2 : ∀ u : State, u.cfg.Legal → u.ph = 2#3 → runLine (.fCol (q 2)) u = .next _ := fun u h p =>
    (runLine_of_phase rfl p).trans (execRow2_eq_next.2 ⟨h, p, rfl⟩)
  have r3 : ∀ u : State, u.cfg.Legal → u.ph = 3#3 → runLine (.fCol (q 3)) u = .next _ := fun u h p =>
    (runLine_of_phase rfl p).trans (execRow3_eq_next.2 ⟨h, p, rfl⟩)
  simp only [runLines]
  rw [r0, andThen_next, r1 _ (by exact hc) rfl, andThen_next, r2 _ (by exact hc) rfl, andThen_next,
    r3 _ (by exact hc) rfl, andThen_next]
  simp only [keepOrResolve, scanKey, Line.clock, stepClock]
  by_cases h0 : resolve s.cfg 0 (q 0) = noKey <;> by_cases h1 : resolve s.cfg 1 (q 1) = noKey <;>
    by_cases h2 : resolve s.cfg 2 (q 2) = noKey <;> simp [h0, h1, h2]

/-- Doing nothing afterwards changes nothing. -/
theorem andThen_nothing (r : Result) : andThen r .next = r := by cases r <;> rfl

/-- The six lines every scan cycle begins with: the filter's work on the scan result (R165, R170, R181). -/
theorem runLines_scanLines {s : State} (hc : s.cfg.Legal) (hp : s.ph = 0#3) (q : Fin 4 → Nibble) :
    runLines (scanLines q) s =
      execFilter { s with pins := Line.f.clock.pins, rk := scanKey s.cfg q, ph := 5#3 } := by
  have r4 : ∀ u : State, u.cfg.Legal → u.ph = 4#3 → runLine .f u = .next _ := fun u h p =>
    (runLine_of_phase rfl p).trans (execSettle_eq_next.2 ⟨h, p, rfl⟩)
  rw [show scanLines q = [.fCol (q 0), .fCol (q 1), .fCol (q 2), .fCol (q 3)] ++ [.f, .f] from rfl, runLines_append,
    runLines_rows hc hp q, andThen_next]
  show andThen (runLine .f _) (fun u => andThen (runLine .f u) .next) = _
  simp only [andThen_nothing]
  rw [r4 _ (by exact hc) rfl, andThen_next, runLine_of_phase (l := .f) rfl rfl]
  rfl

/-- What acting on the event `e` leaves in the store (R200 to R205). -/
def actDisplay (c : Config) (d : DisplayState) (e : Byte) : DisplayState :=
  if isDigit e then { units := e, tens := d.units }
  else if e = c.keyInc then (toInt d).elim d fun n => toDigits (increment n)
  else if e = c.keyDec then (toInt d).elim d fun n => toDigits (decrement n)
  else d

/-- The effect of `DISPATCH` as one state, on a store of two digit characters (R200). -/
theorem execDispatch_digits {s : State} (hc : s.cfg.Legal) (hp : s.ph = 6#3)
    (ht : isDigit s.ds.tens = true) (hu : isDigit s.ds.units = true) :
    execDispatch s =
      .next { s with ds := actDisplay s.cfg s.ds s.ev, ph := if isDigit s.ev then 7#3 else 0#3 } := by
  have hn := toInt_eq_some.2 ⟨ht, hu, rfl⟩
  obtain ⟨hi, hd⟩ := legal_keys_not_digit hc
  rw [execDispatch_eq, decodeKey]
  cases h : digitOf s.ev with
  | some d =>
    have he := digitOf_eq_some.1 h
    exact execDspDigit_eq_next.2 ⟨hc, hp, he, by simp [actDisplay, he]⟩
  | none =>
    have he := digitOf_eq_none.1 h
    simp only [he, Bool.false_eq_true, if_false]
    split_ifs with h1 h2
    · exact execDspInc_eq_next.2 ⟨hc, hp, h1, _, hn, by simp [actDisplay, hn, h1, hi]⟩
    · exact execDspDec_eq_next.2 ⟨hc, hp, h2, _, hn, by simp [actDisplay, hn, h2, hd, h2 ▸ h1]⟩
    · exact execDspNop_eq_next.2 ⟨hc, hp, rfl, he, h1, h2, by simp [actDisplay, he, h1, h2]⟩

end Sys2Proof.Machine
end

