-- ==== Sys2Proof/Tests/Slice0.lean ====
section
/-! SUPPORT. Tests of single steps, with expected values from the vectors of spec/95_test_vectors.md, and for every statement
with hypotheses a state and operands that meet them. -/

namespace Sys2Proof.Tests

open Sys2Proof Sys2Proof.Machine

/-! ## Small states -/

/-- The number "37", as `PRESS '3'`, `PRESS '7'` leaves it, one tick after the latch took the tens character. -/
def mid : State :=
  { State.reset with ds := { units := 0x37#8, tens := 0x33#8 }, cur := 1#1, cnt := 1, segN := 0xB0#8, ev := 0x37#8, tx := [0x33#8, 0x37#8] }

/-- `mid` at phase `p`. -/
def atPh (p : PhaseCode) : State := { mid with ph := p }

/-- `mid` with the event `e` to be dispatched. -/
def event (e : Byte) : State := { mid with ph := 6#3, ev := e }

/-- `event e` with the number written as two characters. -/
def number (e t u : Byte) : State := { event e with ds := { units := u, tens := t } }

/-- `mid` at row `p`'s step with the scan result `k` and the columns reading `q`. -/
def sampling (p : PhaseCode) (k : Byte) (q : Nibble) : State :=
  { mid with ph := p, rk := k, pins := { rst := false, tick := false, colN := q, txReady := false } }

/-- `mid` at `FILTER` with the three key registers of vector V29. -/
def filtering (rk prev last : Byte) : State := { mid with ph := 5#3, rk := rk, prev := prev, last := last }

/-- `mid` in `SEND` with the collaborator ready or not. -/
def sending (ready : Bool) : State :=
  { mid with ph := 7#3, pins := { rst := false, tick := false, colN := 0xF#4, txReady := ready } }

/-- `mid` just before a refresh. -/
def due : State := { mid with cnt := 2 }

/-- A clock with the given `rst`, `tick` and F step, columns all low. -/
def clockOf (rst tick fStep : Bool) : Clock :=
  { pins := { rst := rst, tick := tick, colN := 0x0#4, txReady := true }, fStep := fStep }

/-- The answer is the next state `t`. -/
def gives (r : Result) (t : State) : Bool :=
  match r with
  | .next u => decide (u = t)
  | .fault _ => false
  | .refused _ => false

abbrev Gives (r : Result) (t : State) : Prop := gives r t = true

/-- `mid` with parameters outside R10: `TH = 0`. -/
def broken : State := { mid with cfg := { Config.default with th := 0 } }

theorem mid_inv : Inv mid where
  legal := by decide
  units := by decide
  tens := by decide
  counter := by decide
  latch := .inr ⟨3, by decide⟩
  scanKey := by decide
  prevKey := by decide
  lastKey := by decide
  eventKey := by decide
  dispatch := by decide
  send := by decide
  armed := by decide
  trace := by decide

theorem mid_rearmed : Rearmed mid := ⟨by decide, by decide, by decide⟩

/-- The invariant in a state that waits in `SEND`, with a held key. -/
theorem sending_inv : Inv { sending false with rk := 0x37#8, prev := 0x37#8, last := 0x37#8 } where
  legal := by decide
  units := by decide
  tens := by decide
  counter := by decide
  latch := .inr ⟨3, by decide⟩
  scanKey := by decide
  prevKey := by decide
  lastKey := by decide
  eventKey := by decide
  dispatch := by decide
  send := by decide
  armed := by decide
  trace := by decide

/-! ## Well-formedness: each check refuses an ill-formed term -/

theorem test_nop_of_a_digit_is_ill_formed : Instr.wellFormed Config.default (.dspNop 0x35#8) = false := by decide
theorem test_nop_of_key_inc_is_ill_formed : Instr.wellFormed Config.default (.dspNop 0x23#8) = false := by decide
theorem test_nop_of_key_dec_is_ill_formed : Instr.wellFormed Config.default (.dspNop 0x2A#8) = false := by decide
theorem test_blank_of_a_digit_is_ill_formed : Instr.wellFormed Config.default (.encodeBlank 0x39#8) = false := by decide
theorem test_nop_of_a_letter_is_well_formed : Instr.wellFormed Config.default (.dspNop 0x44#8) = true := by decide
theorem test_blank_beside_the_digits_is_well_formed :
    Instr.wellFormed Config.default (.encodeBlank 0x3A#8) = true ∧
    Instr.wellFormed Config.default (.encodeBlank 0x2F#8) = true := by decide

/-! ## Decoding: a word of every row, from the patterns of R91 and R99 -/

theorem test_decode_tick : decode Config.default ⟨.evt, 0b00000001#8⟩ = .ok .tick := by decide
theorem test_decode_row0 : decode Config.default ⟨.ph, 0b00000000#8⟩ = .ok .row0 := by decide
theorem test_decode_row1 : decode Config.default ⟨.ph, 0b00000001#8⟩ = .ok .row1 := by decide
theorem test_decode_row2 : decode Config.default ⟨.ph, 0b00000010#8⟩ = .ok .row2 := by decide
theorem test_decode_row3 : decode Config.default ⟨.ph, 0b00000011#8⟩ = .ok .row3 := by decide
theorem test_decode_settle : decode Config.default ⟨.ph, 0b00000100#8⟩ = .ok .settle := by decide
theorem test_decode_filter : decode Config.default ⟨.ph, 0b00000101#8⟩ = .ok .filter := by decide
theorem test_decode_dispatch : decode Config.default ⟨.ph, 0b00000110#8⟩ = .ok .dispatch := by decide
theorem test_decode_send : decode Config.default ⟨.ph, 0b00000111#8⟩ = .ok .send := by decide
theorem test_decode_dsp_digit : decode Config.default ⟨.key, 0b00110101#8⟩ = .ok (.dspDigit 5) := by decide
theorem test_decode_dsp_inc : decode Config.default ⟨.key, 0b00100011#8⟩ = .ok .dspInc := by decide
theorem test_decode_dsp_dec : decode Config.default ⟨.key, 0b00101010#8⟩ = .ok .dspDec := by decide
theorem test_decode_dsp_nop : decode Config.default ⟨.key, 0b01000011#8⟩ = .ok (.dspNop 0x43#8) := by decide
theorem test_decode_encode_digit : decode Config.default ⟨.char, 0b00111000#8⟩ = .ok (.encodeDigit 8) := by decide
theorem test_decode_encode_blank : decode Config.default ⟨.char, 0b00111111#8⟩ = .ok (.encodeBlank 0x3F#8) := by decide

theorem test_decode_rejects_by_name :
    decode Config.default ⟨.evt, 0x00#8⟩ = .error .noTick ∧
    decode Config.default ⟨.evt, 0x02#8⟩ = .error .bitsAboveWidth ∧
    decode Config.default ⟨.ph, 0x08#8⟩ = .error .bitsAboveWidth := by decide

/-- A code one above the digit range matches `0011dddd` and is excluded by `dddd <= 9` (V02). -/
theorem test_key_code_above_nine_is_no_digit : decode Config.default ⟨.key, 0b00111010#8⟩ = .ok (.dspNop 0x3A#8) := by decide

theorem test_table_words :
    decodeTableWord 1 1 = some .tick ∧ decodeTableWord 3 4 = some .settle ∧ decodeTableWord 8 7 = some .send ∧
    decodeTableWord 8 0x39 = some (.dspDigit 9) ∧ decodeTableWord 8 0x23 = some .dspInc ∧
    decodeTableWord 8 0x41 = some (.dspNop 0x41#8) ∧ decodeTableWord 8 256 = none := by decide

/-- A placed word is what the next step runs, from reset: `'9'` replaces the units digit of "00" (R201). -/
theorem test_placed_key_word_runs :
    ∃ t, step (State.reset.withFetchWord 8 0x39) = .next t ∧ t.ds = { units := 0x39#8, tens := 0x30#8 } ∧ t.ph = 7#3 :=
  ⟨_, rfl, by decide, by decide⟩

theorem test_placed_tick_runs : ∃ t, step (State.reset.withFetchWord 1 1) = .next t ∧ t.cnt = 1 := ⟨_, rfl, by decide⟩

/-- A `CHAR` code is placed in the slot the next refresh reads: `'3'` shows as `B0` (V01). -/
theorem test_placed_character_is_encoded :
    ∃ t, step (placeCode State.reset ⟨.char, 0x33#8⟩) = .next t ∧ t.encOut = 0x4F#8 ∧ t.segN = 0xB0#8 :=
  ⟨_, rfl, by decide, by decide⟩

/-! ## One step of each operation -/

/-- V01: `'7'` and `'0'`. -/
theorem test_encode_digit :
    Gives (exec (.encodeDigit 7) mid) { mid with encOut := 0x07#8 } ∧
    Gives (exec (.encodeDigit 0) mid) { mid with encOut := 0x3F#8 } := by decide

/-- V01, the whole table. -/
theorem test_default_patterns :
    (List.finRange 10).map (fun d => segEncode Config.default (chr d)) =
      [0x3F#8, 0x06#8, 0x5B#8, 0x4F#8, 0x66#8, 0x6D#8, 0x7D#8, 0x07#8, 0x7F#8, 0x6F#8] := by decide

/-- V02: `'A'`, the two codes beside the digits, `'?'`, the sentinel, all ones and the number nine are blank. -/
theorem test_encode_blank :
    Gives (exec (.encodeBlank 0x41#8) due) { due with encOut := 0x00#8 } ∧
    [0x41#8, 0x2F#8, 0x3A#8, 0x3F#8, 0x00#8, 0xFF#8, 0x09#8].all (fun ch => segEncode Config.default ch = 0x00#8) = true := by
  decide

/-- V10, ticks 4 and 5: a tick that only counts. -/
theorem test_tick_counts : Gives (exec .tick mid) { mid with cnt := 2 } := by decide

/-- V12, tick 8, with `TH = 3`: the refresh reads the slot of the new cursor, the units `'7'`, and latches `F8`. -/
theorem test_tick_refreshes :
    Gives (exec .tick due) { due with cnt := 0, cur := 0#1, encOut := 0x07#8, segN := 0xF8#8 } := by decide

/-- V22: from a stale `rk = 35`, row 0 overwrites it. -/
theorem test_row0_overwrites : Gives (exec .row0 (sampling 0#3 0x35#8 0b1111#4)) (sampling 1#3 0x00#8 0b1111#4) := by decide

/-- V20: `0b1001` in row 1 is `'5'`; `0b0110` is `'4'`. -/
theorem test_row1 :
    Gives (exec .row1 (sampling 1#3 0x00#8 0b1001#4)) (sampling 2#3 0x35#8 0b1001#4) ∧
    Gives (exec .row1 (sampling 1#3 0x00#8 0b0110#4)) (sampling 2#3 0x34#8 0b0110#4) := by decide

/-- V24: all columns low in row 2 is `'7'`; V22: a key already found stays. -/
theorem test_row2 :
    Gives (exec .row2 (sampling 2#3 0x00#8 0b0000#4)) (sampling 3#3 0x37#8 0b0000#4) ∧
    Gives (exec .row2 (sampling 2#3 0x35#8 0b0000#4)) (sampling 3#3 0x35#8 0b0000#4) := by decide

/-- V21: in row 3 `0b0111` is `'D'` and `0b1010` is `'*'`. -/
theorem test_row3 :
    Gives (exec .row3 (sampling 3#3 0x00#8 0b0111#4)) (sampling 4#3 0x44#8 0b0111#4) ∧
    Gives (exec .row3 (sampling 3#3 0x00#8 0b1010#4)) (sampling 4#3 0x2A#8 0b1010#4) := by decide

/-- V23. -/
theorem test_settle : Gives (exec .settle (atPh 4#3)) (atPh 5#3) := by decide

/-- V29: accepted, held, isolated read ends, roll-over's first read. -/
theorem test_filter_accepts :
    Gives (exec .filter (filtering 0x34#8 0x34#8 0x00#8)) { filtering 0x34#8 0x34#8 0x34#8 with ev := 0x34#8, ph := 6#3 } := by decide
theorem test_filter_emits_nothing :
    Gives (exec .filter (filtering 0x34#8 0x34#8 0x34#8)) { filtering 0x34#8 0x34#8 0x34#8 with ev := 0x00#8, ph := 0#3 } ∧
    Gives (exec .filter (filtering 0x00#8 0x34#8 0x34#8)) { filtering 0x00#8 0x00#8 0x00#8 with ev := 0x00#8, ph := 0#3 } ∧
    Gives (exec .filter (filtering 0x35#8 0x34#8 0x34#8)) { filtering 0x35#8 0x35#8 0x34#8 with ev := 0x00#8, ph := 0#3 } := by decide

/-- V40: `ds = "37"`, `ev = 39` gives `ds = "79"`, `ph = 7`, nothing sent yet; the same through `DISPATCH`. -/
theorem test_dsp_digit : Gives (exec (.dspDigit 9) (event 0x39#8)) { number 0x39#8 0x37#8 0x39#8 with ph := 7#3 } := by decide
theorem test_dispatch_digit :
    Gives (exec .dispatch (event 0x39#8)) { number 0x39#8 0x37#8 0x39#8 with ph := 7#3 } := by decide

/-- V42: carry, and wrap to "00". -/
theorem test_dsp_inc :
    Gives (exec .dspInc (number 0x23#8 0x30#8 0x39#8)) { number 0x23#8 0x31#8 0x30#8 with ph := 0#3 } ∧
    Gives (exec .dspInc (number 0x23#8 0x39#8 0x39#8)) { number 0x23#8 0x30#8 0x30#8 with ph := 0#3 } := by decide

/-- V43: borrow, and wrap to "99". -/
theorem test_dsp_dec :
    Gives (exec .dspDec (number 0x2A#8 0x31#8 0x30#8)) { number 0x2A#8 0x30#8 0x39#8 with ph := 0#3 } ∧
    Gives (exec .dspDec (number 0x2A#8 0x30#8 0x30#8)) { number 0x2A#8 0x39#8 0x39#8 with ph := 0#3 } := by decide

/-- V45: key `'A'` changes only `ph`; the same through `DISPATCH`. -/
theorem test_dsp_nop :
    Gives (exec (.dspNop 0x41#8) (event 0x41#8)) { event 0x41#8 with ph := 0#3 } ∧
    Gives (exec .dispatch (event 0x41#8)) { event 0x41#8 with ph := 0#3 } := by decide

/-- V46: `to_int` of "3A" has no value (U1): the increment stops. -/
theorem test_number_of_non_digits :
    exec .dspInc (number 0x23#8 0x33#8 0x41#8) = .fault .numberOutsideDomain := by rfl

/-- V47: not ready, nothing changes; ready, the byte is appended and the loop restarts. -/
theorem test_send :
    Gives (exec .send (sending false)) (sending false) ∧
    Gives (exec .send (sending true)) { sending true with tx := [0x33#8, 0x37#8, 0x37#8], ph := 0#3 } := by decide

/-- V50: reset from the middle of `SEND`, with `tick` in the same clock, gives the reset state; the input levels are the
clock's. -/
theorem test_reset_wins :
    Gives (step (queueFirst (sending false) (clockOf true true true))) { State.reset with pins := (clockOf true true true).pins } := by decide

/-- R71, R234: a tick and an F step on one edge: first the tick. -/
theorem test_tick_then_step :
    Gives (step (queueFirst (atPh 4#3) (clockOf false true true))) { atPh 4#3 with cnt := 2, pins := (clockOf false true true).pins, stim := [clockOf false false true] } := by decide

/-- V51. -/
theorem test_reset_outputs :
    dsel State.reset = 0#1 ∧ segLines State.reset = 0xFF#8 ∧ rowN State.reset = 0b1110#4 ∧
    txValid State.reset = false ∧ txData State.reset = 0x00#8 := by decide

/-- R95: the row drive of phases 0 to 4. -/
theorem test_row_drive :
    [0#3, 1#3, 2#3, 3#3, 4#3].map (fun p => rowN (atPh p)) = [0b1110#4, 0b1101#4, 0b1011#4, 0b0111#4, 0b1111#4] := by decide

/-- R30, R35: no event, and the event `'7'`. -/
theorem test_event_of : eventOf State.reset = none ∧ eventOf mid = some 0x37#8 := by decide

/-- V46. -/
theorem test_conversions :
    toDigits 0 = { units := 0x30#8, tens := 0x30#8 } ∧ toDigits 36 = { units := 0x36#8, tens := 0x33#8 } ∧
    toInt { units := 0x36#8, tens := 0x33#8 } = some 36 ∧ toInt { units := 0x41#8, tens := 0x33#8 } = none := by decide

/-- V11: with `TH = 1` the counter is one bit wide and every tick is a refresh; with `TH = 250` it has eight bits (R25). -/
theorem test_counter_width :
    [1, 2, 3, 4, 5, 250, 256, 257].map (fun n => ({ Config.default with th := n } : Config).cntW) = [1, 1, 2, 2, 3, 8, 8, 9] := by
  decide

/-- R110: a trace's lines are legal only at their phase. -/
theorem test_line_legality :
    legalTrace [.fCol 0xF#4, .tick, .fCol 0xF#4] mid = true ∧ legalTrace [.f] mid = false ∧
    legalTrace [.fReady true] (atPh 6#3) = false := by decide

/-! ## Witnesses: a state and operands that meet the hypotheses of each statement -/

theorem witness_DecodeOfEncodeIsIdentity :
    Config.default.Legal ∧ Instr.wellFormed Config.default (.dspNop 0x41#8) = true ∧
    Instr.wellFormed Config.default (.encodeBlank 0x3A#8) = true ∧ Instr.wellFormed Config.default (.dspDigit 9) = true := by decide

theorem witness_EncodeOfDecodeIsIdentity :
    decode Config.default ⟨.key, 0x2F#8⟩ = .ok (.dspNop 0x2F#8) ∧ decode Config.default ⟨.ph, 7#8⟩ = .ok .send ∧
    decode Config.default ⟨.evt, 0#8⟩ = .error .noTick ∧ decode Config.default ⟨.ph, 8#8⟩ = .error .bitsAboveWidth := by decide

theorem witness_ResetOverridesEverything :
    (queueFirst (sending false) (clockOf true true true)).cfg.Legal ∧
    (queueFirst (sending false) (clockOf true true true)).stim = clockOf true true true :: [] ∧
    (clockOf true true true).pins.rst = true := by decide

theorem witness_OneRowLowOnlyDuringScan :
    (rowN (atPh 3#3)).getLsbD 3 = false ∧ (rowN (atPh 0#3)).getLsbD 0 = false ∧ 4#3 ≤ (atPh 4#3).ph ∧
    4#3 ≤ (atPh 7#3).ph := by decide

theorem witness_StepRunsPhaseOperation :
    (queueFirst (atPh 5#3) (clockOf false false true)).stim = clockOf false false true :: [] ∧
    (clockOf false false true).pins.rst = false ∧ (clockOf false false true).pins.tick = false ∧
    (clockOf false false true).fStep = true ∧
    decode (atPh 5#3).cfg ⟨.ph, (atPh 5#3).ph.setWidth 8⟩ = .ok .filter := by decide

theorem witness_DispatchStepRunsKeyOperation :
    (queueFirst (event 0x23#8) (clockOf false false true)).stim = clockOf false false true :: [] ∧
    (clockOf false false true).pins.rst = false ∧ (clockOf false false true).pins.tick = false ∧
    (clockOf false false true).fStep = true ∧ (event 0x23#8).ph = 6#3 ∧
    decode (event 0x23#8).cfg ⟨.key, (event 0x23#8).ev⟩ = .ok .dspInc := by decide

theorem witness_StepRunsTickFirst :
    (queueFirst mid (clockOf false true true)).stim = clockOf false true true :: [] ∧
    (clockOf false true true).pins.rst = false ∧ (clockOf false true true).pins.tick = true ∧
    (clockOf false true true).fStep = true ∧ (clockOf false true false).fStep = false ∧
    (queueFirst mid (clockOf false true false)).stim = clockOf false true false :: [] := by decide

theorem witness_ClockWithoutEventChangesNothing :
    mid.cfg.Legal ∧ (queueFirst mid (clockOf false false false)).stim = clockOf false false false :: [] ∧
    (clockOf false false false).pins.rst = false ∧ (clockOf false false false).pins.tick = false ∧
    (clockOf false false false).fStep = false := by decide

theorem witness_UnqueuedClockIsTheEnvironments :
    mid.stim = [] := by decide

theorem witness_EncodeDigitGivesTableEntry :
    mid.cfg.Legal ∧ (isDigit 0x30#8 = true ∧ val 0x30#8 = (0 : Fin 10)) ∧ isDigit 0x39#8 = true ∧ val 0x39#8 = (9 : Fin 10) := by decide

theorem witness_EncodeBlankGivesNoSegment :
    mid.cfg.Legal ∧ (0x2F#8 : Byte) < 0x30#8 ∧ (0x39#8 : Byte) < 0x3A#8 := by decide

theorem witness_TickRefreshesOrCounts :
    mid.cfg.Legal ∧ due.cnt + 1 = due.cfg.th ∧ mid.cnt + 1 ≠ mid.cfg.th ∧ mid.cnt + 1 < mid.cfg.th := by decide

theorem witness_TickCountLaw :
    Inv mid ∧ NoReset [.tick, .fCol 0xF#4, .tick, .tick] := ⟨mid_inv, by decide⟩

theorem witness_LatchShowsLastRefresh :
    Inv mid ∧ NoReset [.tick] ∧ refreshCount [.tick] mid = 0 ∧ NoReset [.tick, .f, .tick] ∧
    refreshCount [.tick, .fCol 0xF#4, .tick] mid ≠ 0 := ⟨mid_inv, by decide, by decide, by decide, by decide⟩

theorem witness_SlotShownWithinTwoPeriods :
    Inv mid := mid_inv

theorem witness_LowestLowColumnWins :
    (0b1110#4).getLsbD 0 = false ∧ ((0b1101#4).getLsbD 0 = true ∧ (0b1101#4).getLsbD 1 = false) ∧
    ((0b1011#4).extractLsb' 0 2 = 0b11#2 ∧ (0b1011#4).getLsbD 2 = false) ∧
    ((0b0111#4).extractLsb' 0 3 = 0b111#3 ∧ (0b0111#4).getLsbD 3 = false) ∧ Config.default.Legal := by decide

theorem witness_Row0StartsNewScan :
    (sampling 0#3 0x35#8 0b1111#4).cfg.Legal ∧ (sampling 0#3 0x35#8 0b1111#4).ph = 0#3 := by decide

theorem witness_LaterRowsKeepEarlierKey :
    (sampling 1#3 0x00#8 0b1101#4).cfg.Legal ∧ (sampling 1#3 0x00#8 0b1101#4).ph = 1#3 ∧
    (sampling 2#3 0x35#8 0b0000#4).ph = 2#3 ∧ (sampling 3#3 0x00#8 0b0111#4).ph = 3#3 := by decide

theorem witness_ScanResultLaw :
    mid.cfg.Legal ∧ mid.ph = 0#3 := by decide

theorem witness_IdealScanPicksLowestPosition :
    let corner : Fin 4 → Fin 4 → Bool := fun r c => decide (r = 3) && decide (c = 3)
    mid.cfg.Legal ∧ mid.ph = 0#3 ∧ corner 3 3 = true ∧
    (∀ r' c', corner r' c' = true → 4 * (3 : Fin 4).val + (3 : Fin 4).val ≤ 4 * r'.val + c'.val) := by decide

theorem witness_SettleOnlyAdvances :
    (atPh 4#3).cfg.Legal ∧ (atPh 4#3).ph = 4#3 := by decide

theorem witness_FilterDecides :
    (filtering 0x00#8 0x34#8 0x34#8).cfg.Legal ∧ (filtering 0x00#8 0x34#8 0x34#8).ph = 5#3 ∧
    (filtering 0x00#8 0x34#8 0x34#8).rk = 0x00#8 ∧
    (let s := filtering 0x34#8 0x34#8 0x00#8; s.rk ≠ 0x00#8 ∧ s.rk = s.prev ∧ s.rk ≠ s.last) ∧
    (let s := filtering 0x34#8 0x34#8 0x34#8; s.rk ≠ 0x00#8 ∧ s.rk = s.last) ∧
    (let s := filtering 0x35#8 0x34#8 0x34#8; s.rk ≠ 0x00#8 ∧ s.rk ≠ s.prev) := by decide

/-- The nibbles of a scan with only `'5'` down (V22), and of an empty one. -/
def rowsOf5 : Fin 4 → Nibble := fun r => if r = 1 then 0b1101#4 else 0b1111#4
def rowsEmpty : Fin 4 → Nibble := fun _ => 0b1111#4

/-- The last clause is a pair of cycles whose second emits an event. -/
theorem witness_EventNeedsTwoAgreeingScans :
    Inv mid ∧ mid.ph = 0#3 ∧ Rearmed mid ∧ cycleLog [rowsOf5, rowsOf5] mid = [(0x35#8, 0x00#8), (0x35#8, 0x35#8)] := ⟨mid_inv, by decide, mid_rearmed, by decide⟩

/-- The log of V32: two events for `'5'`, at cycles 1 and 4, with an empty scan between them. -/
theorem witness_NoRepeatWithoutReleaseOrOtherKey :
    Inv mid ∧ mid.ph = 0#3 ∧
    cycleLog [rowsOf5, rowsOf5, rowsEmpty, rowsOf5, rowsOf5] mid =
      [(0x35#8, 0x00#8), (0x35#8, 0x35#8), (0x00#8, 0x00#8), (0x35#8, 0x00#8), (0x35#8, 0x35#8)] := ⟨mid_inv, by decide, by decide +kernel⟩

theorem witness_HeldKeyAcceptedOnce :
    Inv mid ∧ Rearmed mid ∧ (0x35#8 : Byte) ∈ keyCodes ∧ 2 ≤ 2 ∧ 2 ≤ 1000 ∧ 2 < 1000 := ⟨mid_inv, mid_rearmed, by decide, by decide, by decide, by decide⟩

theorem witness_EmptyScanRearms :
    Inv mid ∧ mid.ph = 0#3 ∧ (0x44#8 : Byte) ∈ keyCodes := ⟨mid_inv, by decide, by decide⟩

theorem witness_RolloverAcceptsWithoutRelease :
    Inv mid ∧ Rearmed mid ∧ (0x34#8 : Byte) ∈ keyCodes ∧ (0x35#8 : Byte) ∈ keyCodes ∧ (0x34#8 : Byte) ≠ 0x35#8 := ⟨mid_inv, mid_rearmed, by decide, by decide, by decide⟩

theorem witness_DispatchRunsItsCase :
    (event 0x39#8).cfg.Legal ∧ (event 0x39#8).ph = 6#3 ∧ (event 0x39#8).ev = chr (9 : Fin 10) ∧
    (event 0x30#8).ev = chr (0 : Fin 10) ∧ (event 0x23#8).ev = (event 0x23#8).cfg.keyInc ∧
    (event 0x2A#8).ev = (event 0x2A#8).cfg.keyDec ∧
    (isDigit (event 0x3A#8).ev = false ∧ (event 0x3A#8).ev ≠ (event 0x3A#8).cfg.keyInc ∧
      (event 0x3A#8).ev ≠ (event 0x3A#8).cfg.keyDec) := by decide

theorem witness_DispatchCompletes :
    (event 0x39#8).cfg.Legal ∧ (event 0x39#8).ph = 6#3 ∧ isDigit (event 0x39#8).ds.tens = true ∧
    isDigit (event 0x39#8).ds.units = true ∧ isDigit (event 0x41#8).ev = false := by decide

theorem witness_DigitRotatesIntoDisplay :
    (event 0x39#8).cfg.Legal ∧ (event 0x39#8).ph = 6#3 ∧ (event 0x39#8).ev = chr (9 : Fin 10) := by decide

theorem witness_IncrementIsModuloHundred :
    let s := number 0x23#8 0x39#8 0x39#8
    s.cfg.Legal ∧ s.ph = 6#3 ∧ s.ev = s.cfg.keyInc ∧ isDigit s.ds.tens = true ∧ isDigit s.ds.units = true := by decide

theorem witness_DecrementWrapsToNinetyNine :
    let s := number 0x2A#8 0x30#8 0x30#8
    s.cfg.Legal ∧ s.ph = 6#3 ∧ s.ev = s.cfg.keyDec ∧ isDigit s.ds.tens = true ∧ isDigit s.ds.units = true := by decide

theorem witness_OtherKeyDoesNothing :
    let s := event 0x41#8
    s.cfg.Legal ∧ s.ph = 6#3 ∧ s.ev = 0x41#8 ∧ isDigit 0x41#8 = false ∧ 0x41#8 ≠ s.cfg.keyInc ∧ 0x41#8 ≠ s.cfg.keyDec := by decide

theorem witness_NumberRoundTrip :
    0 < 100 ∧ 99 < 100 ∧ isDigit mid.ds.tens = true ∧ isDigit mid.ds.units = true := by decide

theorem witness_IncrementAndDecrementUndo :
    let s := number 0x23#8 0x39#8 0x39#8
    let t := number 0x2A#8 0x30#8 0x30#8
    (s.cfg.Legal ∧ s.ph = 6#3 ∧ isDigit s.ds.tens = true ∧ isDigit s.ds.units = true ∧ s.ev = s.cfg.keyInc) ∧
    (t.cfg.Legal ∧ t.ph = 6#3 ∧ isDigit t.ds.tens = true ∧ isDigit t.ds.units = true ∧ t.ev = t.cfg.keyDec) := by decide

theorem witness_NumberOfNonDigitsFaults :
    let s := number 0x23#8 0x33#8 0x3A#8
    let t := number 0x2A#8 0x2F#8 0x30#8
    (s.cfg.Legal ∧ s.ph = 6#3 ∧ isDigit s.ds.units = false ∧ s.ev = s.cfg.keyInc) ∧
    (t.cfg.Legal ∧ t.ph = 6#3 ∧ isDigit t.ds.tens = false ∧ t.ev = t.cfg.keyDec) := by decide

theorem witness_SendHandsOverOneByte :
    (sending true).cfg.Legal ∧ (sending true).ph = 7#3 ∧ (sending true).pins.txReady = true ∧
    (sending false).ph = 7#3 ∧ (sending false).pins.txReady = false := by decide

theorem witness_BlockedSendHoldsForeground :
    (sending false).cfg.Legal ∧ (sending false).ph = 7#3 ∧
    (∀ l ∈ [Line.fReady false, Line.tick, Line.tick, Line.fReady false], l = Line.tick ∨ l = Line.fReady false) := by decide

theorem witness_LastTwoDigitsRotationLaw :
    Inv mid ∧ Rearmed mid := ⟨mid_inv, mid_rearmed⟩

theorem witness_PressedFunctionKeysCount :
    Inv mid ∧ Rearmed mid ∧ toInt mid.ds = some 37 := ⟨mid_inv, mid_rearmed, by decide⟩

theorem witness_EachRegisterHasOneWriter :
    Gives (exec .tick mid) { mid with cnt := 2 } ∧ ofDisplay .tick = true ∧ writesDisplay .tick = false ∧
    Gives (exec .settle (atPh 4#3)) (atPh 5#3) ∧ ofDisplay .settle = false ∧
    Gives (exec (.dspNop 0x41#8) (event 0x41#8)) { event 0x41#8 with ph := 0#3 } ∧ writesDisplay (.dspNop 0x41#8) = false := by decide

theorem witness_TickCommutesWithForeground :
    ofDisplay .filter = false ∧ writesDisplay .filter = false ∧ ofDisplay .dispatch = false ∧ mid.cnt + 1 ≠ mid.cfg.th := by decide

theorem witness_ExactlyOneForegroundOperationEnabled :
    Inv mid ∧ Inv { sending false with rk := 0x37#8, prev := 0x37#8, last := 0x37#8 } ∧ Instr.send ∈ phaseOperations := ⟨mid_inv, sending_inv, by decide⟩

theorem witness_OperationNotSelectedIsRefused :
    mid.cfg.Legal ∧ (Instr.row1 ∈ phaseOperations ∧ Instr.row1 ≠ decodePh mid.ph) ∧ mid.ph ≠ 6#3 ∧
    (event 0x39#8).ev ≠ chr (8 : Fin 10) ∧ (event 0x39#8).ev ≠ (event 0x39#8).cfg.keyInc ∧
    (event 0x39#8).ev ≠ (event 0x39#8).cfg.keyDec ∧ (event 0x39#8).ev ≠ 0x41#8 ∧
    Instr.wellFormed (event 0x39#8).cfg (.dspNop 0x39#8) = false ∧ isDigit 0x39#8 = true := by decide

theorem witness_IllegalParametersAreRefused :
    ¬ broken.cfg.Legal := by decide

theorem witness_InvariantHoldsAfterReset :
    Config.default.Legal ∧ ({ Config.default with th := 1 } : Config).Legal := by decide

theorem witness_EveryStepKeepsInvariant :
    ∃ t, Inv (queueFirst mid tickClock) ∧ step (queueFirst mid tickClock) = .next t := ⟨_, ⟨by decide, by decide, by decide, by decide, .inr ⟨3, by decide⟩, by decide, by decide, by decide, by decide, by decide,
    by decide, by decide, by decide⟩, rfl⟩

theorem witness_StepsNeverStopUnderInvariant :
    Inv mid ∧ Inv { sending false with rk := 0x37#8, prev := 0x37#8, last := 0x37#8 } := ⟨mid_inv, sending_inv⟩

end Sys2Proof.Tests
end

/-! ## The registers, the outputs and the step: what 10_state.md says of them -/

namespace Sys2Proof.Machine

/-! ### Reset and outputs (R31 to R33, R42) -/

/-- Straight after reset row 0 is selected (R42). -/
theorem rowN_initial (c : Config) : rowN (State.initial c) = 0b1110#4 := by simp [rowN, State.initial]

/-- Settles O5: the reset state is a literal, and the outputs are read off it. -/
theorem resetValues : Obligations.ResetValues :=
  ⟨rfl, fun c => ⟨rfl, rfl, rfl, rfl, rfl, rfl, rfl, rfl, rfl, rfl, rfl, rfl, rfl, rowN_initial c, rfl, rfl⟩⟩

theorem txValid_eq_true {s : State} : txValid s = true ↔ s.ph = 7#3 := decide_eq_true_iff

/-- Settles O7: `dsel` and `tx_data` are the registers themselves. -/
theorem selectAndSerialOutputs : Obligations.SelectAndSerialOutputs :=
  fun _ => ⟨rfl, txValid_eq_true, rfl⟩

/-- R32, over the eight phase codes and the four rows. -/
theorem rowN_low_iff (s : State) (r : Fin 4) : (rowN s).getLsbD r.val = false ↔ s.ph.toNat = r.val := by
  unfold rowN
  generalize s.ph = p
  revert p r
  decide

theorem rowN_eq_high {s : State} (h : 4#3 ≤ s.ph) : rowN s = 0b1111#4 := by
  unfold rowN
  generalize s.ph = p at h
  revert p
  decide

/-- Settles O8: two low rows are both row `ph`, so they are the same row. -/
theorem oneRowLowOnlyDuringScan : Obligations.OneRowLowOnlyDuringScan := fun s =>
  ⟨rowN_low_iff s, rowN_eq_high, fun r r' hr hr' =>
    Fin.ext (((rowN_low_iff s r).1 hr).symm.trans ((rowN_low_iff s r').1 hr'))⟩

/-! ### The step of agent F (R27, R91) -/

/-- A phase code, read as a byte of space `PH`, selects its operation (R91). -/
theorem decode_ph_setWidth (c : Config) (p : PhaseCode) : decode c ⟨.ph, p.setWidth 8⟩ = .ok (decodePh p) := by
  have hw : (p.setWidth 8).toNat < 8 := by
    rw [BitVec.toNat_setWidth_of_le (by decide)]
    exact p.isLt
  have hp : (p.setWidth 8).setWidth 3 = p := by
    rw [BitVec.setWidth_setWidth_of_le _ (by decide), BitVec.setWidth_eq]
  simp only [decode, if_pos hw, hp]

/-- With a clock queued, the first one is taken (R110). -/
theorem takeClock_cons {s : State} {c : Clock} {rest : List Clock} (hs : s.stim = c :: rest) :
    takeClock s = (c, { s with stim := rest }) := by
  simp [takeClock, hs]

/-- A clock with an F step and neither `rst` nor `tick` performs the operation `ph` names (R27, R232). -/
theorem step_of_fStep {s : State} {c : Clock} {rest : List Clock} (hs : s.stim = c :: rest)
    (hr : c.pins.rst = false) (ht : c.pins.tick = false) (hf : c.fStep = true) :
    step s = exec (decodePh s.ph) { s with pins := c.pins, stim := rest } := by
  simp [step, fetch, takeClock_cons hs, hr, ht, hf]

/-- Settles O10: the decoded operation is `decodePh` of the phase. -/
theorem stepRunsPhaseOperation : Obligations.StepRunsPhaseOperation := by
  intro s c rest i hs hr ht hf hi
  obtain rfl : decodePh s.ph = i := by simpa [decode_ph_setWidth] using hi
  exact step_of_fStep hs hr ht hf

/-! ### The frame of every operation (R40) -/

/-- The registers an operation may write (R20, R40): `t` is `s` with new values in these alone. -/
def OnlyWrites (s t : State) : Instr → Prop
  | .tick => ∃ b n g e, t = { s with cur := b, cnt := n, segN := g, encOut := e }
  | .row0 | .row1 | .row2 | .row3 => ∃ k p, t = { s with rk := k, ph := p }
  | .settle | .dspNop _ => ∃ p, t = { s with ph := p }
  | .filter => ∃ k l e p, t = { s with prev := k, last := l, ev := e, ph := p }
  | .dispatch | .dspDigit _ | .dspInc | .dspDec => ∃ d p, t = { s with ds := d, ph := p }
  | .send => ∃ l p, t = { s with tx := l, ph := p }
  | .encodeDigit _ | .encodeBlank _ => ∃ e, t = { s with encOut := e }

theorem execTick_onlyWrites {s t : State} (h : execTick s = .next t) : OnlyWrites s t .tick := by
  obtain ⟨-, rfl⟩ := execTick_eq_next.1 h
  split_ifs
  · exact ⟨_, _, _, _, rfl⟩
  · exact ⟨_, _, _, _, rfl⟩

theorem execFilter_onlyWrites {s t : State} (h : execFilter s = .next t) : OnlyWrites s t .filter := by
  obtain ⟨-, -, ⟨-, rfl⟩ | ⟨-, -, -, rfl⟩ | ⟨-, -, rfl⟩⟩ := execFilter_cases h
  · exact ⟨_, _, _, _, rfl⟩
  · exact ⟨_, _, _, _, rfl⟩
  · exact ⟨_, _, _, _, rfl⟩

theorem execSend_onlyWrites {s t : State} (h : execSend s = .next t) : OnlyWrites s t .send := by
  obtain ⟨-, -, rfl⟩ := execSend_eq_next.1 h
  split_ifs
  · exact ⟨_, _, rfl⟩
  · exact ⟨s.tx, s.ph, rfl⟩

/-- `DISPATCH` answers with what one of the four `DSP` operations answers (R200). -/
theorem execDispatch_cases {s t : State} (h : execDispatch s = .next t) :
    (∃ d, execDspDigit d s = .next t) ∨ execDspInc s = .next t ∨ execDspDec s = .next t ∨
      execDspNop s.ev s = .next t := by
  unfold execDispatch at h
  split at h
  · exact .inl ⟨_, h⟩
  · split_ifs at h
    · exact .inr (.inl h)
    · exact .inr (.inr (.inl h))
    · exact .inr (.inr (.inr h))

theorem execDspDigit_onlyWrites {d : Fin 10} {s t : State} (h : execDspDigit d s = .next t) :
    OnlyWrites s t (.dspDigit d) := by
  obtain ⟨-, -, -, rfl⟩ := execDspDigit_eq_next.1 h
  exact ⟨_, _, rfl⟩

theorem execDspInc_onlyWrites {s t : State} (h : execDspInc s = .next t) : OnlyWrites s t .dspInc := by
  obtain ⟨-, -, -, -, -, rfl⟩ := execDspInc_eq_next.1 h
  exact ⟨_, _, rfl⟩

theorem execDspDec_onlyWrites {s t : State} (h : execDspDec s = .next t) : OnlyWrites s t .dspDec := by
  obtain ⟨-, -, -, -, -, rfl⟩ := execDspDec_eq_next.1 h
  exact ⟨_, _, rfl⟩

theorem execDspNop_onlyWrites {k : Byte} {s t : State} (h : execDspNop k s = .next t) :
    OnlyWrites s t (.dspNop k) := by
  obtain ⟨-, -, -, -, -, -, rfl⟩ := execDspNop_eq_next.1 h
  exact ⟨_, rfl⟩

theorem execDispatch_onlyWrites {s t : State} (h : execDispatch s = .next t) : OnlyWrites s t .dispatch := by
  obtain ⟨_, h⟩ | h | h | h := execDispatch_cases h
  · exact execDspDigit_onlyWrites h
  · exact execDspInc_onlyWrites h
  · exact execDspDec_onlyWrites h
  · obtain ⟨p, ht⟩ := execDspNop_onlyWrites h
    exact ⟨s.ds, p, ht⟩

/-- Every operation writes its own registers only (R40). -/
theorem exec_onlyWrites {i : Instr} {s t : State} (h : exec i s = .next t) : OnlyWrites s t i := by
  cases i with
  | tick => exact execTick_onlyWrites h
  | row0 =>
    obtain ⟨-, -, rfl⟩ := execRow0_eq_next.1 h
    exact ⟨_, _, rfl⟩
  | row1 =>
    obtain ⟨-, -, rfl⟩ := execRow1_eq_next.1 h
    exact ⟨_, _, rfl⟩
  | row2 =>
    obtain ⟨-, -, rfl⟩ := execRow2_eq_next.1 h
    exact ⟨_, _, rfl⟩
  | row3 =>
    obtain ⟨-, -, rfl⟩ := execRow3_eq_next.1 h
    exact ⟨_, _, rfl⟩
  | settle =>
    obtain ⟨-, -, rfl⟩ := execSettle_eq_next.1 h
    exact ⟨_, rfl⟩
  | filter => exact execFilter_onlyWrites h
  | dispatch => exact execDispatch_onlyWrites h
  | send => exact execSend_onlyWrites h
  | dspDigit d => exact execDspDigit_onlyWrites h
  | dspInc => exact execDspInc_onlyWrites h
  | dspDec => exact execDspDec_onlyWrites h
  | dspNop k => exact execDspNop_onlyWrites h
  | encodeDigit d =>
    obtain ⟨-, rfl⟩ := execEncodeDigit_eq_next.1 h
    exact ⟨_, rfl⟩
  | encodeBlank ch =>
    obtain ⟨-, -, rfl⟩ := execEncodeBlank_eq_next.1 h
    exact ⟨_, rfl⟩

@[simp] theorem sameDisplay_iff {s t : State} :
    SameDisplay s t ↔ t.cur = s.cur ∧ t.cnt = s.cnt ∧ t.segN = s.segN ∧ t.encOut = s.encOut :=
  ⟨fun ⟨a, b, c, d⟩ => ⟨a, b, c, d⟩, fun ⟨a, b, c, d⟩ => ⟨a, b, c, d⟩⟩

@[simp] theorem sameForeground_iff {s t : State} :
    SameForeground s t ↔
      t.ds = s.ds ∧ t.ph = s.ph ∧ t.rk = s.rk ∧ t.prev = s.prev ∧ t.last = s.last ∧ t.ev = s.ev ∧ t.tx = s.tx :=
  ⟨fun ⟨a, b, c, d, e, f, g⟩ => ⟨a, b, c, d, e, f, g⟩, fun ⟨a, b, c, d, e, f, g⟩ => ⟨a, b, c, d, e, f, g⟩⟩

/-- Settles O47: each clause keeps a register that `OnlyWrites` does not list for the operation. -/
theorem eachRegisterHasOneWriter : Obligations.EachRegisterHasOneWriter := by
  intro i s t h
  match i, t, exec_onlyWrites h with
  | .tick, _, ⟨_, _, _, _, rfl⟩ | .filter, _, ⟨_, _, _, _, rfl⟩ => simp [ofDisplay, writesDisplay]
  | .row0, _, ⟨_, _, rfl⟩ | .row1, _, ⟨_, _, rfl⟩ | .row2, _, ⟨_, _, rfl⟩ | .row3, _, ⟨_, _, rfl⟩ =>
    simp [ofDisplay, writesDisplay]
  | .dispatch, _, ⟨_, _, rfl⟩ | .dspDigit _, _, ⟨_, _, rfl⟩ | .dspInc, _, ⟨_, _, rfl⟩ | .dspDec, _, ⟨_, _, rfl⟩ =>
    simp [ofDisplay, writesDisplay]
  | .send, _, ⟨_, _, rfl⟩ => simp [ofDisplay, writesDisplay]
  | .settle, _, ⟨_, rfl⟩ | .dspNop _, _, ⟨_, rfl⟩ => simp [ofDisplay, writesDisplay]
  | .encodeDigit _, _, ⟨_, rfl⟩ | .encodeBlank _, _, ⟨_, rfl⟩ => simp [ofDisplay, writesDisplay]

/-- The parameters are not state: no operation writes them (R36). -/
theorem exec_cfg {i : Instr} {s t : State} (h : exec i s = .next t) : t.cfg = s.cfg := by
  obtain ⟨-, -, -, -, -, -, -, hcfg, -⟩ := eachRegisterHasOneWriter i s t h
  exact hcfg

/-! ### The invariant of the reachable states (R23, R25, R26, R43) -/

/-- `TH >= 1` (R10). -/
theorem legal_th_pos {c : Config} (h : c.Legal) : 0 < c.th := h.1

/-- The invariant holds of the state right after reset (R42). -/
theorem initial_inv {c : Config} (h : c.Legal) : Inv (State.initial c) where
  legal := h
  units := rfl
  tens := rfl
  counter := legal_th_pos h
  latch := .inl rfl
  scanKey := .inl rfl
  prevKey := .inl rfl
  lastKey := .inl rfl
  eventKey := .inl rfl
  dispatch := fun h6 => absurd h6 (by simp [State.initial])
  send := fun h7 => absurd h7 (by simp [State.initial])
  armed := fun hl => absurd rfl hl
  trace := fun _ hb => absurd hb List.not_mem_nil

/-- Settles O52: the machine's reset state is the one of the default parameters, which are legal. -/
theorem invariantHoldsAfterReset : Obligations.InvariantHoldsAfterReset :=
  ⟨initial_inv (by decide), fun _ => initial_inv⟩

section InvariantRules

variable {s t : State}

/-- The environment's fields are not part of the invariant. -/
theorem inv_setEnvironment (h : Inv s) (p : Pins) (q : List Clock) (n : Nat) :
    Inv { s with pins := p, stim := q, drawn := n } := { h with }

theorem driveEncoder_keeps_inv (h : Inv s) (p : Byte) : Inv (driveEncoder s p) := { h with }

/-- A control transfer must meet the conditions of its target: an event for `DISPATCH`, a digit for `SEND` (R43). -/
theorem goTo_keeps_inv (h : Inv s) {p : PhaseCode} (h6 : p = 6#3 → s.ev ≠ noKey)
    (h7 : p = 7#3 → isDigit s.ev = true) : Inv (goTo s p) := { h with dispatch := h6, send := h7 }

/-- Into any phase but `DISPATCH` and `SEND`. -/
theorem goTo_scan_keeps_inv (h : Inv s) {p : PhaseCode} (hp : p < 6#3) : Inv (goTo s p) :=
  goTo_keeps_inv h (fun h6 => absurd (h6 ▸ hp) (by decide)) (fun h7 => absurd (h7 ▸ hp) (by decide))

theorem memWrite_keeps_inv (h : Inv s) {t u : Byte} (ht : isDigit t = true) (hu : isDigit u = true) :
    Inv (memWrite s t u) := { h with tens := ht, units := hu }

theorem handOver_keeps_inv (h : Inv s) {b : Byte} (hb : isDigit b = true) : Inv (handOver s b) :=
  { h with trace := fun x hx => (List.mem_append.1 hx).elim (h.trace x) fun hx => List.mem_singleton.1 hx ▸ hb }

theorem inv_setScanKey (h : Inv s) {k : Byte} (hk : IsRawKey k) : Inv { s with rk := k } := { h with scanKey := hk }

/-- Truncating the sum to `CNT_W` bits cannot raise it, so it stays below the threshold (R25). -/
theorem countUp_keeps_inv (h : Inv s) (hn : s.cnt + 1 ≠ s.cfg.th) : Inv (countUp s) :=
  { h with counter := (Nat.mod_le _ _).trans_lt (lt_of_le_of_ne h.counter hn) }

theorem isDigit_memRead {d : DisplayState} (hu : isDigit d.units = true) (ht : isDigit d.tens = true) (i : Bit) :
    isDigit (memRead d i) = true := by
  unfold memRead
  split_ifs
  · exact hu
  · exact ht

/-- ENC gives a digit character its table entry (R130). -/
@[simp] theorem segEncode_chr (c : Config) (d : Fin 10) : segEncode c (chr d) = c.segPattern d := by
  simp [segEncode]

/-- A refresh latches the complement of a digit, since both slots hold digits (R26). -/
theorem refresh_keeps_inv (h : Inv s) : Inv (refresh s) := by
  obtain ⟨d, hd⟩ := exists_chr_of_isDigit (isDigit_memRead h.units h.tens (~~~s.cur))
  exact { h with
    counter := legal_th_pos h.legal
    latch := .inr ⟨d, by simp [hd]⟩ }

theorem execTick_keeps_inv (h : Inv s) (ht : execTick s = .next t) : Inv t := by
  obtain ⟨-, rfl⟩ := execTick_eq_next.1 ht
  split_ifs with hn
  · exact refresh_keeps_inv h
  · exact countUp_keeps_inv h hn

theorem isRawKey_resolve {c : Config} (h : c.Legal) (r : Fin 4) (q : Nibble) : IsRawKey (resolve c r q) := by
  unfold resolve
  split
  · exact .inr (legal_keyAt h _ _)
  · exact .inl rfl

theorem isRawKey_keepOrResolve (h : Inv s) (r : Fin 4) : IsRawKey (keepOrResolve s r) := by
  unfold keepOrResolve
  split_ifs
  · exact isRawKey_resolve h.legal r _
  · exact h.scanKey

/-- Any row operation: a scan result in the domain of R43, and a phase of the scan. -/
theorem inv_sampleRow (h : Inv s) {k : Byte} {p : PhaseCode} (hk : IsRawKey k) (hp : p < 6#3) :
    Inv { s with rk := k, ph := p } := goTo_scan_keeps_inv (inv_setScanKey h hk) hp

/-- `FILTER` accepts a key only when `rk` holds one, and then `prev` holds it too (R181). -/
theorem execFilter_keeps_inv (h : Inv s) (ht : execFilter s = .next t) : Inv t := by
  obtain ⟨-, -, ⟨-, rfl⟩ | ⟨hk, -, -, rfl⟩ | ⟨hk, -, rfl⟩⟩ := execFilter_cases ht
  · exact { h with
      prevKey := .inl rfl, lastKey := .inl rfl, eventKey := .inl rfl
      dispatch := by simp, send := by simp, armed := by simp }
  · exact { h with
      prevKey := h.scanKey, lastKey := h.scanKey, eventKey := h.scanKey
      dispatch := fun _ => hk, send := by simp, armed := fun _ => hk }
  · exact { h with
      prevKey := h.scanKey, eventKey := .inl rfl
      dispatch := by simp, send := by simp, armed := fun _ => hk }

/-- `DSP.DIGIT` moves on to `SEND` with a digit in `ev` (R201). -/
theorem execDspDigit_keeps_inv (h : Inv s) {d : Fin 10} (ht : execDspDigit d s = .next t) : Inv t := by
  obtain ⟨-, hp, he, rfl⟩ := execDspDigit_eq_next.1 ht
  have hd : isDigit s.ev = true := he ▸ isDigit_chr d
  exact goTo_keeps_inv (memWrite_keeps_inv h h.units hd) (fun _ => h.dispatch hp) fun _ => hd

/-- The digits of a number below 100 are digit characters (R202). -/
theorem inv_writeNumber (h : Inv s) {n : Nat} (hn : n < 100) : Inv { s with ds := toDigits n, ph := 0#3 } :=
  have ht : isDigit (chr (n / 10)) = true := isDigit_chr_of_lt (by omega)
  have hu : isDigit (chr (n % 10)) = true := isDigit_chr_of_lt (by omega)
  goTo_scan_keeps_inv (memWrite_keeps_inv h ht hu) (by decide)

theorem increment_lt (n : Nat) : increment n < 100 := Nat.mod_lt _ (by decide)

theorem decrement_lt {n : Nat} (h : n < 100) : decrement n < 100 := by
  unfold decrement
  split_ifs <;> omega

theorem execDspInc_keeps_inv (h : Inv s) (ht : execDspInc s = .next t) : Inv t := by
  obtain ⟨-, -, -, n, -, rfl⟩ := execDspInc_eq_next.1 ht
  exact inv_writeNumber h (increment_lt n)

theorem execDspDec_keeps_inv (h : Inv s) (ht : execDspDec s = .next t) : Inv t := by
  obtain ⟨-, -, -, n, hn, rfl⟩ := execDspDec_eq_next.1 ht
  exact inv_writeNumber h (decrement_lt (toInt_lt hn))

theorem execDspNop_keeps_inv (h : Inv s) {k : Byte} (ht : execDspNop k s = .next t) : Inv t := by
  obtain ⟨-, -, -, -, -, -, rfl⟩ := execDspNop_eq_next.1 ht
  exact goTo_scan_keeps_inv h (by decide)

theorem execDispatch_keeps_inv (h : Inv s) (ht : execDispatch s = .next t) : Inv t := by
  obtain ⟨_, ht⟩ | ht | ht | ht := execDispatch_cases ht
  · exact execDspDigit_keeps_inv h ht
  · exact execDspInc_keeps_inv h ht
  · exact execDspDec_keeps_inv h ht
  · exact execDspNop_keeps_inv h ht

/-- `SEND` hands over `ev`, a digit at `ph = 7` (R206). -/
theorem execSend_keeps_inv (h : Inv s) (ht : execSend s = .next t) : Inv t := by
  obtain ⟨-, hp, rfl⟩ := execSend_eq_next.1 ht
  split_ifs
  · exact goTo_scan_keeps_inv (handOver_keeps_inv h (h.send hp)) (by decide)
  · exact h

/-- Every operation of the table keeps the invariant. -/
theorem exec_keeps_inv (h : Inv s) {i : Instr} (ht : exec i s = .next t) : Inv t := by
  cases i with
  | tick => exact execTick_keeps_inv h ht
  | row0 =>
    obtain ⟨-, -, rfl⟩ := execRow0_eq_next.1 ht
    exact inv_sampleRow h (isRawKey_resolve h.legal _ _) (by decide)
  | row1 =>
    obtain ⟨-, -, rfl⟩ := execRow1_eq_next.1 ht
    exact inv_sampleRow h (isRawKey_keepOrResolve h _) (by decide)
  | row2 =>
    obtain ⟨-, -, rfl⟩ := execRow2_eq_next.1 ht
    exact inv_sampleRow h (isRawKey_keepOrResolve h _) (by decide)
  | row3 =>
    obtain ⟨-, -, rfl⟩ := execRow3_eq_next.1 ht
    exact inv_sampleRow h (isRawKey_keepOrResolve h _) (by decide)
  | settle =>
    obtain ⟨-, -, rfl⟩ := execSettle_eq_next.1 ht
    exact goTo_scan_keeps_inv h (by decide)
  | filter => exact execFilter_keeps_inv h ht
  | dispatch => exact execDispatch_keeps_inv h ht
  | send => exact execSend_keeps_inv h ht
  | dspDigit d => exact execDspDigit_keeps_inv h ht
  | dspInc => exact execDspInc_keeps_inv h ht
  | dspDec => exact execDspDec_keeps_inv h ht
  | dspNop k => exact execDspNop_keeps_inv h ht
  | encodeDigit d =>
    obtain ⟨-, rfl⟩ := execEncodeDigit_eq_next.1 ht
    exact driveEncoder_keeps_inv h _
  | encodeBlank ch =>
    obtain ⟨-, -, rfl⟩ := execEncodeBlank_eq_next.1 ht
    exact driveEncoder_keeps_inv h _

end InvariantRules

/-- Settles O53: the clock taken is not part of the invariant, and reset, `TICK`, F's operation and the idle clock each
keep it. -/
theorem everyStepKeepsInvariant : Obligations.EveryStepKeepsInvariant := by
  intro s t h ht
  obtain ⟨p, q, n, ht⟩ := step_cases ht
  have hu := inv_setEnvironment h p q n
  obtain ht | ht | ht | ht := ht
  · obtain ⟨hc, rfl⟩ := takeReset_eq_next.1 ht
    exact ⟨inv_setEnvironment (initial_inv hc) _ _ _, rfl⟩
  · exact ⟨exec_keeps_inv hu ht, (exec_cfg ht).trans rfl⟩
  · exact ⟨exec_keeps_inv hu ht, (exec_cfg ht).trans rfl⟩
  · obtain ⟨-, rfl⟩ := takeIdle_eq_next.1 ht
    exact ⟨hu, rfl⟩

end Sys2Proof.Machine

/-! ## The store, the two agents and the clock: what 20_memory.md says of them -/

namespace Sys2Proof.Machine

/-! ### `TICK` and the operations of F (R70, R71) -/

/-- `s` with agent M's registers and the net of its encoder as they are in `m` (R20, R40). -/
def withDisplayOf (m s : State) : State :=
  { s with cur := m.cur, cnt := m.cnt, segN := m.segN, encOut := m.encOut }

/-- The state a `TICK` leaves (R140). -/
def afterTick (s : State) : State := if s.cnt + 1 = s.cfg.th then refresh s else countUp s

theorem exec_tick {s : State} (hc : s.cfg.Legal) : exec .tick s = .next (afterTick s) := gate_open _ hc rfl

/-- A `TICK` writes what the display registers, the parameters and, on a refresh, the store determine, and nothing else:
two states that agree on these get the same display registers. -/
theorem afterTick_eq_withDisplayOf {s t : State} (hc : t.cfg = s.cfg) (hm : SameDisplay s t)
    (hd : t.ds = s.ds ∨ s.cnt + 1 ≠ s.cfg.th) : afterTick t = withDisplayOf (afterTick s) t := by
  obtain ⟨hcur, hcnt, hseg, henc⟩ := hm
  by_cases hr : s.cnt + 1 = s.cfg.th
  · have hds := hd.resolve_right (not_not_intro hr)
    simp [afterTick, hr, hc, hcnt, withDisplayOf, refresh, driveEncoder, hcur, hds]
  · simp [afterTick, hr, hc, hcnt, withDisplayOf, countUp, ← hcur, ← hseg, ← henc]

/-- Two continuations that agree on the state an operation leaves give one answer. -/
theorem andThen_congr {r : Result} {k k' : State → Result} (h : ∀ t, r = .next t → k t = k' t) :
    andThen r k = andThen r k' := by
  cases r with
  | next t => exact h t rfl
  | fault _ => rfl
  | refused _ => rfl

/-- An answer with agent M's registers in the state it leaves, if any, as they are in `m`. -/
def keepDisplayOf (m : State) (r : Result) : Result := andThen r fun t => .next (withDisplayOf m t)

@[simp] theorem keepDisplayOf_next (m t : State) : keepDisplayOf m (.next t) = .next (withDisplayOf m t) := rfl

/-- The gate reads no register of M. -/
theorem keepDisplayOf_gate (m s : State) (e : Bool) (r : Result) :
    keepDisplayOf m (gate s e r) = gate s e (keepDisplayOf m r) := by
  unfold gate
  split_ifs <;> rfl

section NonInterference

variable (m s : State)

theorem changeNumber_withDisplayOf (f : Nat → Nat) :
    keepDisplayOf m (changeNumber s f) = changeNumber (withDisplayOf m s) f := by
  have hds : (withDisplayOf m s).ds = s.ds := rfl
  unfold changeNumber
  rw [hds]
  cases toInt s.ds <;> rfl

theorem execFilter_withDisplayOf :
    keepDisplayOf m (execFilter s) = execFilter (withDisplayOf m s) := by
  rw [execFilter, keepDisplayOf_gate, keepDisplayOf_next, apply_ite (withDisplayOf m), apply_ite (withDisplayOf m)]
  rfl

theorem execSend_withDisplayOf :
    keepDisplayOf m (execSend s) = execSend (withDisplayOf m s) := by
  rw [execSend, keepDisplayOf_gate, keepDisplayOf_next, apply_ite (withDisplayOf m)]
  rfl

theorem execDspDigit_withDisplayOf (d : Fin 10) :
    keepDisplayOf m (execDspDigit d s) = execDspDigit d (withDisplayOf m s) :=
  keepDisplayOf_gate ..

theorem execDspInc_withDisplayOf :
    keepDisplayOf m (execDspInc s) = execDspInc (withDisplayOf m s) := by
  rw [execDspInc, keepDisplayOf_gate, changeNumber_withDisplayOf]
  rfl

theorem execDspDec_withDisplayOf :
    keepDisplayOf m (execDspDec s) = execDspDec (withDisplayOf m s) := by
  rw [execDspDec, keepDisplayOf_gate, changeNumber_withDisplayOf]
  rfl

theorem execDspNop_withDisplayOf (k : Byte) :
    keepDisplayOf m (execDspNop k s) = execDspNop k (withDisplayOf m s) :=
  keepDisplayOf_gate ..

theorem execDispatch_withDisplayOf :
    keepDisplayOf m (execDispatch s) = execDispatch (withDisplayOf m s) := by
  have hcfg : (withDisplayOf m s).cfg = s.cfg := rfl
  have hev : (withDisplayOf m s).ev = s.ev := rfl
  unfold execDispatch
  rw [hcfg, hev]
  cases digitOf s.ev with
  | some d => exact execDspDigit_withDisplayOf m s d
  | none =>
    simp only
    split_ifs
    · exact execDspInc_withDisplayOf m s
    · exact execDspDec_withDisplayOf m s
    · exact execDspNop_withDisplayOf m s s.ev

/-- "F never reads anything M writes" (R71): with other values in M's registers an operation of F gives the same answer,
with those values kept. -/
theorem exec_withDisplayOf {i : Instr} (hi : ofDisplay i = false) :
    keepDisplayOf m (exec i s) = exec i (withDisplayOf m s) := by
  cases i with
  | tick | encodeDigit _ | encodeBlank _ => cases hi
  | row0 | row1 | row2 | row3 | settle => exact keepDisplayOf_gate ..
  | filter => exact execFilter_withDisplayOf m s
  | dispatch => exact execDispatch_withDisplayOf m s
  | send => exact execSend_withDisplayOf m s
  | dspDigit d => exact execDspDigit_withDisplayOf m s d
  | dspInc => exact execDspInc_withDisplayOf m s
  | dspDec => exact execDspDec_withDisplayOf m s
  | dspNop k => exact execDspNop_withDisplayOf m s k

end NonInterference

/-- Every operation passes the gate, which tests the parameters first (R246). -/
theorem exec_illegal {s : State} (hc : ¬ s.cfg.Legal) (i : Instr) :
    exec i s = .refused .parametersOutsideR10 := by
  cases i with
  | dispatch =>
    simp only [exec, execDispatch]
    split
    · exact gate_illegal _ _ hc
    · split_ifs <;> exact gate_illegal _ _ hc
  | _ => exact gate_illegal _ _ hc

/-- A `TICK` after an operation of F writes the display registers that a `TICK` before it would have written, unless it is a
refresh and the operation wrote the store (R71). -/
theorem exec_tick_of_exec {i : Instr} {s t : State} (hi : ofDisplay i = false)
    (hd : writesDisplay i = false ∨ s.cnt + 1 ≠ s.cfg.th) (hc : s.cfg.Legal) (h : exec i s = .next t) :
    exec .tick t = .next (withDisplayOf (afterTick s) t) := by
  obtain ⟨-, hsame, -, hds, -, -, -, hcfg, -⟩ := eachRegisterHasOneWriter i s t h
  rw [exec_tick (hcfg ▸ hc), afterTick_eq_withDisplayOf hcfg (hsame hi) (hd.imp_left hds)]

/-- Settles O48: either order is F's operation on the state of before with the display registers of after the `TICK`; with
illegal parameters both orders are refused alike. -/
theorem tickCommutesWithForeground : Obligations.TickCommutesWithForeground := by
  intro i s hi hd
  by_cases hc : s.cfg.Legal
  · have htick : afterTick s = withDisplayOf (afterTick s) s :=
      afterTick_eq_withDisplayOf rfl ⟨rfl, rfl, rfl, rfl⟩ (.inl rfl)
    calc andThen (exec .tick s) (exec i)
        = exec i (withDisplayOf (afterTick s) s) := by rw [exec_tick hc, andThen_next, ← htick]
      _ = keepDisplayOf (afterTick s) (exec i s) := (exec_withDisplayOf _ s hi).symm
      _ = andThen (exec i s) (exec .tick) := andThen_congr fun t ht => (exec_tick_of_exec hi hd hc ht).symm
  · rw [exec_illegal hc, exec_illegal hc]
    rfl

/-! ### The joint write (R64, R65) -/

/-- Settles O9: the read of a slot after the joint write, at either slot; the write is a record update of the store alone. -/
theorem jointWriteSetsBothSlots : Obligations.JointWriteSetsBothSlots := fun s t u =>
  ⟨memRead_memWrite s t u 1#1, memRead_memWrite s t u 0#1, rfl⟩

/-! ### The clock a step takes (R71, R77, R234) -/

/-- A clock with `tick` and neither `rst` nor an F step is one `TICK` (R232). -/
theorem step_of_tick {s : State} {c : Clock} {rest : List Clock} (hs : s.stim = c :: rest)
    (hr : c.pins.rst = false) (ht : c.pins.tick = true) (hf : c.fStep = false) :
    step s = exec .tick { s with pins := c.pins, stim := rest } := by
  simp [step, fetch, takeClock_cons hs, hr, ht, hf]

/-- A clock with `tick` and an F step is one `TICK`, with the F step alone put back in front (R71, R234). -/
theorem step_of_tick_fStep {s : State} {c : Clock} {rest : List Clock} (hs : s.stim = c :: rest)
    (hr : c.pins.rst = false) (ht : c.pins.tick = true) (hf : c.fStep = true) :
    step s = exec .tick
      { s with pins := c.pins, stim := { pins := { c.pins with tick := false }, fStep := true } :: rest } := by
  simp [step, fetch, takeClock_cons hs, hr, ht, hf, queueFirst]

/-- Settles O12: the clock without and with an F step. -/
theorem stepRunsTickFirst : Obligations.StepRunsTickFirst := fun _ _ _ hs hr ht =>
  ⟨step_of_tick hs hr ht, step_of_tick_fStep hs hr ht⟩

/-- A step sees the queue and the count of draws through the clock it takes only (R77). -/
theorem step_eq_of_takeClock_eq {s t : State} (hclock : takeClock s = takeClock t) (hph : s.ph = t.ph) :
    step s = step t := by
  simp only [step, fetch, hclock, hph]

/-- Settles O14: both states take the same clock, and taking it leaves the same state. -/
theorem unqueuedClockIsTheEnvironments : Obligations.UnqueuedClockIsTheEnvironments := by
  intro s hs
  have hqueued : takeClock { s with stim := [Config.freeClock s.drawn], drawn := s.drawn + 1 } =
      (Config.freeClock s.drawn, { s with stim := [], drawn := s.drawn + 1 }) := takeClock_cons rfl
  exact step_eq_of_takeClock_eq (by rw [takeClock_empty hs, hqueued, ← hs]) rfl

end Sys2Proof.Machine

/-! ## The operation map: what 30_encoding.md says of the decoder and the encoder -/

namespace Sys2Proof.Machine

/-! ### Space `PH` (R91) -/

/-- A phase code is one of the eight of R91. -/
theorem phaseCode_cases : ∀ p : PhaseCode,
    p = 0b000#3 ∨ p = 0b001#3 ∨ p = 0b010#3 ∨ p = 0b011#3 ∨ p = 0b100#3 ∨ p = 0b101#3 ∨ p = 0b110#3 ∨ p = 0b111#3 := by
  decide

/-- Every operation of the sequencer has a phase code. -/
theorem exists_decodePh_eq : ∀ i ∈ phaseOperations, ∃ p, decodePh p = i := by decide

theorem decodePh_mem_phaseOperations : ∀ p, decodePh p ∈ phaseOperations := by decide

theorem wellFormed_of_mem_phaseOperations (c : Config) {i : Instr} (hi : i ∈ phaseOperations) :
    i.wellFormed c = true := by
  cases i with
  | dspNop _ | encodeBlank _ => simp [phaseOperations] at hi
  | _ => rfl

theorem encode_decodePh (c : Config) (p : PhaseCode) : encode c (decodePh p) = ⟨.ph, p.setWidth 8⟩ := by
  rcases phaseCode_cases p with rfl | rfl | rfl | rfl | rfl | rfl | rfl | rfl <;> rfl

theorem decode_encode_phase (c : Config) {i : Instr} (hi : i ∈ phaseOperations) : decode c (encode c i) = .ok i := by
  obtain ⟨p, rfl⟩ := exists_decodePh_eq i hi
  rw [encode_decodePh, decode_ph_setWidth]

/-- Settles O2: each code is a phase code read as a byte. -/
theorem phaseCodesSelectOperations : Obligations.PhaseCodesSelectOperations := fun c =>
  ⟨decode_ph_setWidth c 0b000#3, decode_ph_setWidth c 0b001#3, decode_ph_setWidth c 0b010#3, decode_ph_setWidth c 0b011#3,
    decode_ph_setWidth c 0b100#3, decode_ph_setWidth c 0b101#3, decode_ph_setWidth c 0b110#3, decode_ph_setWidth c 0b111#3⟩

/-- Settles O1: closed words under closed parameters. -/
theorem tableWordsDecode : Obligations.TableWordsDecode := by
  unfold Obligations.TableWordsDecode
  decide

/-! ### Space `KEY` (R99) -/

@[simp] theorem decode_key (c : Config) (v : Byte) : decode c ⟨.key, v⟩ = .ok (decodeKey c v) := rfl

theorem wellFormed_dspNop {c : Config} {k : Byte} :
    (Instr.dspNop k).wellFormed c = true ↔ isDigit k = false ∧ k ≠ c.keyInc ∧ k ≠ c.keyDec := by
  simp [Instr.wellFormed, and_assoc]

@[simp] theorem decodeKey_chr (c : Config) (d : Fin 10) : decodeKey c (chr d) = .dspDigit d := by
  simp [decodeKey]

/-- A code that is no digit is taken by the first of the three later rows that fits. -/
theorem decodeKey_of_not_digit (c : Config) {v : Byte} (hv : isDigit v = false) :
    decodeKey c v = if v = c.keyInc then .dspInc else if v = c.keyDec then .dspDec else .dspNop v := by
  simp [decodeKey, digitOf_eq_none.2 hv]

theorem decodeKey_keyInc {c : Config} (hc : c.Legal) : decodeKey c c.keyInc = .dspInc := by
  rw [decodeKey_of_not_digit c (legal_keys_not_digit hc).1, if_pos rfl]

theorem legal_keyDec_ne_keyInc {c : Config} (hc : c.Legal) : c.keyDec ≠ c.keyInc := by
  obtain ⟨-, -, -, -, -, -, hne⟩ := hc
  exact hne.symm

theorem decodeKey_keyDec {c : Config} (hc : c.Legal) : decodeKey c c.keyDec = .dspDec := by
  rw [decodeKey_of_not_digit c (legal_keys_not_digit hc).2, if_neg (legal_keyDec_ne_keyInc hc), if_pos rfl]

theorem decodeKey_of_wellFormed {c : Config} {k : Byte} (hk : (Instr.dspNop k).wellFormed c = true) :
    decodeKey c k = .dspNop k := by
  obtain ⟨hdigit, hinc, hdec⟩ := wellFormed_dspNop.1 hk
  rw [decodeKey_of_not_digit c hdigit, if_neg hinc, if_neg hdec]

theorem wellFormed_decodeKey (c : Config) (v : Byte) : (decodeKey c v).wellFormed c = true := by
  cases hv : isDigit v with
  | true =>
    obtain ⟨d, rfl⟩ := exists_chr_of_isDigit hv
    rw [decodeKey_chr]
    rfl
  | false =>
    rw [decodeKey_of_not_digit c hv]
    split_ifs with hinc hdec
    · rfl
    · rfl
    · exact wellFormed_dspNop.2 ⟨hv, hinc, hdec⟩

theorem encode_dspDigit (c : Config) (d : Fin 10) : encode c (.dspDigit d) = ⟨.key, chr d⟩ :=
  congrArg (Code.mk .key) (or_digit_eq_chr d)

theorem encode_decodeKey (c : Config) (v : Byte) : encode c (decodeKey c v) = ⟨.key, v⟩ := by
  cases hv : isDigit v with
  | true =>
    obtain ⟨d, rfl⟩ := exists_chr_of_isDigit hv
    rw [decodeKey_chr, encode_dspDigit]
  | false =>
    rw [decodeKey_of_not_digit c hv]
    split_ifs with hinc hdec
    · rw [hinc]; rfl
    · rw [hdec]; rfl
    · rfl

/-! ### Space `CHAR` (R99) -/

@[simp] theorem decode_char (c : Config) (v : Byte) : decode c ⟨.char, v⟩ = .ok (decodeChar v) := rfl

theorem wellFormed_encodeBlank {c : Config} {ch : Byte} :
    (Instr.encodeBlank ch).wellFormed c = true ↔ isDigit ch = false := by
  simp [Instr.wellFormed]

@[simp] theorem decodeChar_chr (d : Fin 10) : decodeChar (chr d) = .encodeDigit d := by
  simp [decodeChar]

theorem decodeChar_of_not_digit {v : Byte} (hv : isDigit v = false) : decodeChar v = .encodeBlank v := by
  simp [decodeChar, digitOf_eq_none.2 hv]

theorem wellFormed_decodeChar (c : Config) (v : Byte) : (decodeChar v).wellFormed c = true := by
  cases hv : isDigit v with
  | true =>
    obtain ⟨d, rfl⟩ := exists_chr_of_isDigit hv
    rw [decodeChar_chr]
    rfl
  | false => rw [decodeChar_of_not_digit hv, wellFormed_encodeBlank, hv]

theorem encode_encodeDigit (c : Config) (d : Fin 10) : encode c (.encodeDigit d) = ⟨.char, chr d⟩ :=
  congrArg (Code.mk .char) (or_digit_eq_chr d)

theorem encode_decodeChar (c : Config) (v : Byte) : encode c (decodeChar v) = ⟨.char, v⟩ := by
  cases hv : isDigit v with
  | true =>
    obtain ⟨d, rfl⟩ := exists_chr_of_isDigit hv
    rw [decodeChar_chr, encode_encodeDigit]
  | false =>
    rw [decodeChar_of_not_digit hv]
    rfl

/-! ### The round trips (R99, R100) -/

/-- Settles O3: `TICK` has its own space, a phase operation comes back from its phase code, and each row of `KEY` and `CHAR`
holds only codes that no earlier row takes. -/
theorem decodeOfEncodeIsIdentity : Obligations.DecodeOfEncodeIsIdentity := by
  intro c i hc hi
  cases i with
  | tick => rfl
  | dspDigit d => rw [encode_dspDigit, decode_key, decodeKey_chr]
  | dspInc => exact congrArg Except.ok (decodeKey_keyInc hc)
  | dspDec => exact congrArg Except.ok (decodeKey_keyDec hc)
  | dspNop k => exact congrArg Except.ok (decodeKey_of_wellFormed hi)
  | encodeDigit d => rw [encode_encodeDigit, decode_char, decodeChar_chr]
  | encodeBlank ch => exact congrArg Except.ok (decodeChar_of_not_digit (wellFormed_encodeBlank.1 hi))
  | row0 | row1 | row2 | row3 | settle | filter | dispatch | send => exact decode_encode_phase c (by decide)

theorem decode_evt (c : Config) (v : Byte) :
    decode c ⟨.evt, v⟩ = if v = 1#8 then .ok .tick else if v = 0#8 then .error .noTick else .error .bitsAboveWidth := rfl

/-- A byte below 8 is a phase code. -/
theorem exists_phaseCode {v : Byte} (hv : v.toNat < 8) : ∃ p : PhaseCode, v = p.setWidth 8 := by
  refine ⟨v.setWidth 3, BitVec.eq_of_toNat_eq ?_⟩
  simp only [BitVec.toNat_setWidth]
  omega

theorem decode_ph_of_wide (c : Config) {v : Byte} (hv : 8 ≤ v.toNat) : decode c ⟨.ph, v⟩ = .error .bitsAboveWidth :=
  if_neg (Nat.not_lt.2 hv)

/-- The codes that select an operation, space by space, and what they select. -/
theorem decode_eq_ok {c : Config} {code : Code} {i : Instr} (h : decode c code = .ok i) :
    (code = ⟨.evt, 1#8⟩ ∧ i = .tick) ∨
    (∃ p : PhaseCode, code = ⟨.ph, p.setWidth 8⟩ ∧ i = decodePh p) ∨
    (∃ v, code = ⟨.key, v⟩ ∧ i = decodeKey c v) ∨
    (∃ v, code = ⟨.char, v⟩ ∧ i = decodeChar v) := by
  obtain ⟨space, v⟩ := code
  cases space with
  | evt =>
    rw [decode_evt] at h
    split_ifs at h with h1
    exact .inl ⟨h1 ▸ rfl, (Except.ok.inj h).symm⟩
  | ph =>
    rcases Nat.lt_or_ge v.toNat 8 with hv | hv
    · obtain ⟨p, rfl⟩ := exists_phaseCode hv
      rw [decode_ph_setWidth] at h
      exact .inr (.inl ⟨p, rfl, (Except.ok.inj h).symm⟩)
    · rw [decode_ph_of_wide c hv] at h
      cases h
  | key => exact .inr (.inr (.inl ⟨v, rfl, (Except.ok.inj h).symm⟩))
  | char => exact .inr (.inr (.inr ⟨v, rfl, (Except.ok.inj h).symm⟩))

/-- The codes that select nothing: an `EVT` value other than 1 and a `PH` value of more than three bits. -/
theorem decode_eq_error_iff (c : Config) (code : Code) :
    (∃ e, decode c code = .error e) ↔
      (code.space = .evt ∧ code.value ≠ 1#8) ∨ (code.space = .ph ∧ 8 ≤ code.value.toNat) := by
  obtain ⟨space, v⟩ := code
  cases space with
  | evt =>
    rw [decode_evt]
    split_ifs with h1 h0 <;> simp [h1]
  | ph =>
    rcases Nat.lt_or_ge v.toNat 8 with hv | hv
    · obtain ⟨p, rfl⟩ := exists_phaseCode hv
      simpa [decode_ph_setWidth] using hv
    · simp [decode_ph_of_wide c hv, hv]
  | key => simp [decode_key]
  | char => simp [decode_char]

/-- Settles O4: the four decoders give well-formed operations, and each is undone by `encode`. -/
theorem encodeOfDecodeIsIdentity : Obligations.EncodeOfDecodeIsIdentity := by
  refine fun c code => ⟨fun i h => ?_, decode_eq_error_iff c code⟩
  obtain ⟨rfl, rfl⟩ | ⟨p, rfl, rfl⟩ | ⟨v, rfl, rfl⟩ | ⟨v, rfl, rfl⟩ := decode_eq_ok h
  · exact ⟨rfl, rfl⟩
  · exact ⟨wellFormed_of_mem_phaseOperations c (decodePh_mem_phaseOperations p), encode_decodePh c p⟩
  · exact ⟨wellFormed_decodeKey c v, encode_decodeKey c v⟩
  · exact ⟨wellFormed_decodeChar c v, encode_decodeChar c v⟩

/-! ### What a step performs of space `KEY`, and what is refused (R99, R200, R246) -/

/-- Settles O11: phase code 6 names `DISPATCH`, which performs what space `KEY` selects for `ev`. -/
theorem dispatchStepRunsKeyOperation : Obligations.DispatchStepRunsKeyOperation := by
  intro s c rest i hs hr ht hf hph hi
  obtain rfl : decodeKey s.cfg s.ev = i := Except.ok.inj hi
  calc step s
      = exec (decodePh s.ph) { s with pins := c.pins, stim := rest } := step_of_fStep hs hr ht hf
    _ = execDispatch { s with pins := c.pins, stim := rest } := by rw [hph]; rfl
    _ = exec (decodeKey s.cfg s.ev) { s with pins := c.pins, stim := rest } := execDispatch_eq _

section Refusals

variable {s : State} (hc : s.cfg.Legal)
include hc

theorem execDspDigit_refused {d : Fin 10} (h : s.ph ≠ 6#3 ∨ s.ev ≠ chr d) :
    execDspDigit d s = .refused .notEnabled :=
  gate_shut _ hc (by simpa [imp_iff_not_or] using h)

theorem execDspInc_refused (h : s.ph ≠ 6#3 ∨ s.ev ≠ s.cfg.keyInc) : execDspInc s = .refused .notEnabled :=
  gate_shut _ hc (by simpa [imp_iff_not_or] using h)

theorem execDspDec_refused (h : s.ph ≠ 6#3 ∨ s.ev ≠ s.cfg.keyDec) : execDspDec s = .refused .notEnabled :=
  gate_shut _ hc (by simpa [imp_iff_not_or] using h)

theorem execDspNop_refused {k : Byte} (h : s.ph ≠ 6#3 ∨ s.ev ≠ k ∨ (Instr.dspNop k).wellFormed s.cfg = false) :
    execDspNop k s = .refused .notEnabled := by
  refine gate_shut _ hc (Bool.eq_false_iff.2 fun he => ?_)
  simp only [Bool.and_eq_true, Bool.not_eq_true', decide_eq_true_eq] at he
  obtain ⟨⟨⟨⟨hph, hev⟩, hdigit⟩, hinc⟩, hdec⟩ := he
  rcases h with h | h | h
  · exact h hph
  · exact h hev
  · exact Bool.eq_false_iff.1 h (wellFormed_dspNop.2 ⟨hdigit, hinc, hdec⟩)

theorem execEncodeBlank_refused {ch : Byte} (h : isDigit ch = true) : execEncodeBlank ch s = .refused .notEnabled :=
  gate_shut _ hc (by simp [h])

/-- Away from `ph = 6` each of the four cases of `DISPATCH` is refused. -/
theorem execDispatch_refused (h : s.ph ≠ 6#3) : execDispatch s = .refused .notEnabled := by
  unfold execDispatch
  split
  · exact execDspDigit_refused hc (.inl h)
  · split_ifs
    · exact execDspInc_refused hc (.inl h)
    · exact execDspDec_refused hc (.inl h)
    · exact execDspNop_refused hc (.inl h)

/-- An operation of the sequencer is refused at every phase but its own. -/
theorem exec_decodePh_refused {p : PhaseCode} (h : s.ph ≠ p) : exec (decodePh p) s = .refused .notEnabled := by
  have hshut : decide (s.ph = p) = false := decide_eq_false h
  obtain rfl | rfl | rfl | rfl | rfl | rfl | rfl | rfl := phaseCode_cases p
  · exact gate_shut _ hc hshut
  · exact gate_shut _ hc hshut
  · exact gate_shut _ hc hshut
  · exact gate_shut _ hc hshut
  · exact gate_shut _ hc hshut
  · exact gate_shut _ hc hshut
  · exact execDispatch_refused hc h
  · exact gate_shut _ hc hshut

end Refusals

/-- Settles O50: the gate of each operation is shut by its own condition. -/
theorem operationNotSelectedIsRefused : Obligations.OperationNotSelectedIsRefused := by
  refine fun s hc => ⟨fun i hi hne => ?_, fun _ => execDspDigit_refused hc, execDspInc_refused hc,
    execDspDec_refused hc, fun _ => execDspNop_refused hc, fun _ => execEncodeBlank_refused hc⟩
  obtain ⟨p, rfl⟩ := exists_decodePh_eq i hi
  have hp : s.ph ≠ p := fun h => hne (h ▸ rfl)
  exact exec_decodePh_refused hc hp

end Sys2Proof.Machine

/-! ## The encoder: what 40_segment_encoder.md says of it -/

namespace Sys2Proof.Machine

/-- The two ranges of R131 are what R130's range leaves. -/
theorem isDigit_eq_false_iff {v : Byte} : isDigit v = false ↔ v < 0x30#8 ∨ 0x39#8 < v := by
  simp [isDigit, imp_iff_not_or]

/-- A digit character of value `d` is the character of `d`. -/
theorem eq_chr_of_val_eq {v : Byte} {d : Fin 10} (hv : isDigit v = true) (hd : val v = d) : v = chr d := by
  rw [← hd, chr_val_of_isDigit hv]

/-- Settles O15: the code is the character of its digit, and the gate is open under legal parameters. -/
theorem encodeDigitGivesTableEntry : Obligations.EncodeDigitGivesTableEntry := by
  intro s ch d hc hv hd
  obtain rfl : ch = chr d := eq_chr_of_val_eq hv hd
  exact ⟨decodeChar_chr d, execEncodeDigit_eq_next.2 ⟨hc, rfl⟩⟩

/-- Settles O16: a code of either range is no digit character, which selects and enables the blank. -/
theorem encodeBlankGivesNoSegment : Obligations.EncodeBlankGivesNoSegment := by
  intro s ch hc hrange
  have hv : isDigit ch = false := isDigit_eq_false_iff.2 hrange
  exact ⟨decodeChar_of_not_digit hv, execEncodeBlank_eq_next.2 ⟨hc, hv, rfl⟩⟩

/-- Of the 256 codes, the digit characters are the ten from `0x30` on. -/
theorem filter_isDigit_codes :
    ((List.range 256).filter fun n => isDigit (BitVec.ofNat 8 n)) = List.range' 0x30 10 := by decide

/-- Settles O17: a split on `isDigit`, each side with its row of space `CHAR`. -/
theorem encoderCasesPartition : Obligations.EncoderCasesPartition := by
  refine ⟨fun c ch => ?_, by rw [filter_isDigit_codes, List.length_range']⟩
  rw [decode_char]
  cases hv : isDigit ch with
  | true =>
    obtain ⟨d, rfl⟩ := exists_chr_of_isDigit hv
    exact .inl ⟨rfl, d, rfl, congrArg Except.ok (decodeChar_chr d)⟩
  | false => exact .inr ⟨rfl, congrArg Except.ok (decodeChar_of_not_digit hv)⟩

end Sys2Proof.Machine

/-! ## The display refresher: what 41_mux_refresher.md says of it -/

namespace Sys2Proof.Machine

/-! ### One `TICK` (R140) -/

theorem afterTick_of_due {s : State} (hn : s.cnt + 1 = s.cfg.th) : afterTick s = refresh s := if_pos hn

theorem afterTick_of_not_due {s : State} (hn : s.cnt + 1 ≠ s.cfg.th) : afterTick s = countUp s := if_neg hn

/-- The low `CNT_W` bits of a value in the range of `cnt` are the value itself (R25). -/
theorem mod_two_pow_cntW {c : Config} {n : Nat} (h : n < c.th) : n % 2 ^ c.cntW = n :=
  Nat.mod_eq_of_lt (h.trans_le c.th_le_two_pow_cntW)

/-- Settles O18: on either branch the state after the `TICK` is known, and the encoder's pattern is `segEncode`. -/
theorem tickRefreshesOrCounts : Obligations.TickRefreshesOrCounts := by
  intro s hc
  rw [exec_tick hc]
  refine ⟨fun hn => ⟨segEncode s.cfg (memRead s.ds (~~~s.cur)), exec_decodeChar hc _, ?_⟩, fun hn => ?_,
    mod_two_pow_cntW⟩
  · rw [afterTick_of_due hn]
    rfl
  · rw [afterTick_of_not_due hn]
    rfl

/-! ### One line of a trace without a reset (R110, R141) -/

/-- In a state of the invariant the operation `ph` names completes (R246). -/
theorem exec_decodePh_eq_next {s : State} (h : Inv s) : ∃ t, exec (decodePh s.ph) s = .next t := by
  have hc := h.legal
  rcases phaseCode_cases s.ph with hp | hp | hp | hp | hp | hp | hp | hp <;> rw [hp]
  · exact ⟨_, execRow0_eq_next.2 ⟨hc, hp, rfl⟩⟩
  · exact ⟨_, execRow1_eq_next.2 ⟨hc, hp, rfl⟩⟩
  · exact ⟨_, execRow2_eq_next.2 ⟨hc, hp, rfl⟩⟩
  · exact ⟨_, execRow3_eq_next.2 ⟨hc, hp, rfl⟩⟩
  · exact ⟨_, execSettle_eq_next.2 ⟨hc, hp, rfl⟩⟩
  · exact ⟨_, execFilter_eq hc hp⟩
  · exact ⟨_, execDispatch_digits hc hp h.tens h.units⟩
  · exact ⟨_, execSend_eq_next.2 ⟨hc, hp, rfl⟩⟩

theorem ofDisplay_decodePh : ∀ p, ofDisplay (decodePh p) = false := by decide

/-- A line, run from a state of the invariant, keeps the invariant and the parameters. -/
theorem runLine_keeps_inv {s u : State} {l : Line} (h : Inv s) (hrun : runLine l s = .next u) :
    Inv u ∧ u.cfg = s.cfg :=
  everyStepKeepsInvariant (queueFirst s l.clock) u (inv_setEnvironment h s.pins (l.clock :: s.stim) s.drawn) hrun

/-- What a line other than `RESET` does to the registers of agent M (R140): it is a refresh, or it shows the same latch and
adds 1 to the counter for a `TICK` and nothing for an F step. -/
inductive DisplayStep (s u : State) : Line → Prop
  | refresh (due : s.cnt + 1 = s.cfg.th) (cnt : u.cnt = 0) (cur : u.cur = ~~~s.cur)
      (segN : u.segN = ~~~(segEncode s.cfg (memRead s.ds u.cur))) : DisplayStep s u .tick
  | keep {l : Line} (notDue : l = .tick → s.cnt + 1 ≠ s.cfg.th) (cnt : u.cnt = s.cnt + tickCount [l])
      (cur : u.cur = s.cur) (segN : u.segN = s.segN) : DisplayStep s u l

/-- A `TICK` line refreshes at the threshold and counts below it. -/
theorem runLine_tick_displayStep {s : State} (h : Inv s) :
    ∃ u, runLine .tick s = .next u ∧ DisplayStep s u .tick := by
  refine ⟨afterTick { s with pins := tickClock.pins }, exec_tick (by exact h.legal), ?_⟩
  by_cases hn : s.cnt + 1 = s.cfg.th
  · rw [afterTick_of_due (by exact hn)]
    exact .refresh hn rfl rfl rfl
  · rw [afterTick_of_not_due (by exact hn)]
    exact .keep (fun _ => hn) (mod_two_pow_cntW (lt_of_le_of_ne h.counter hn)) rfl rfl

/-- An F step writes no register of M (R40). -/
theorem runLine_fStep_displayStep {s : State} {l : Line} (h : Inv s) (hf : l.clock.fStep = true) (hl : l ≠ .tick) :
    ∃ u, runLine l s = .next u ∧ DisplayStep s u l := by
  obtain ⟨u, hu⟩ := exec_decodePh_eq_next (inv_setEnvironment h l.clock.pins s.stim s.drawn)
  obtain ⟨-, hsame, -⟩ := eachRegisterHasOneWriter _ _ _ hu
  obtain ⟨hcur, hcnt, hseg, -⟩ := hsame (ofDisplay_decodePh _)
  have hk : tickCount [l] = 0 := by simp [tickCount, hl]
  exact ⟨u, (runLine_f s l hf).trans hu, .keep (fun h => absurd h hl) (by rw [hk]; exact hcnt) hcur hseg⟩

/-- Every line but `RESET` runs to completion, as a display step. -/
theorem runLine_displayStep {s : State} {l : Line} (h : Inv s) (hl : l ≠ .reset) :
    ∃ u, runLine l s = .next u ∧ DisplayStep s u l := by
  cases l with
  | tick => exact runLine_tick_displayStep h
  | reset => exact absurd rfl hl
  | fCol _ | f | fReady _ => exact runLine_fStep_displayStep h rfl nofun

/-! ### A trace without a reset -/

/-- A run of a trace, line by line, with what each line does to the registers of M. -/
inductive DisplayRun : State → List Line → State → Prop
  | nil (s : State) : DisplayRun s [] s
  | cons {s u t : State} {l : Line} {ls : List Line} (run : runLine l s = .next u) (cfg : u.cfg = s.cfg)
      (step : DisplayStep s u l) (rest : DisplayRun u ls t) : DisplayRun s (l :: ls) t

/-- From a state of the invariant a trace without `RESET` runs to its end. -/
theorem exists_displayRun {s : State} {ls : List Line} (h : Inv s) (hls : NoReset ls) :
    ∃ t, DisplayRun s ls t ∧ Inv t := by
  induction ls generalizing s with
  | nil => exact ⟨s, .nil s, h⟩
  | cons l ls ih =>
    obtain ⟨hl, hrest⟩ := List.forall_mem_cons.1 hls
    obtain ⟨u, hrun, hstep⟩ := runLine_displayStep h hl
    obtain ⟨hu, hcfg⟩ := runLine_keeps_inv h hrun
    obtain ⟨t, ht, hinv⟩ := ih hu hrest
    exact ⟨t, .cons hrun hcfg hstep ht, hinv⟩

theorem tickCount_cons (l : Line) (ls : List Line) : tickCount (l :: ls) = tickCount [l] + tickCount ls := by
  rw [tickCount, tickCount, tickCount, ← List.countP_append, List.singleton_append]

theorem refreshCount_of_refresh {s u : State} {ls : List Line} (hrun : runLine .tick s = .next u)
    (due : s.cnt + 1 = s.cfg.th) : refreshCount (.tick :: ls) s = 1 + refreshCount ls u := by
  simp [refreshCount, hrun, refreshDue, due]

theorem refreshCount_of_keep {s u : State} {l : Line} {ls : List Line} (hrun : runLine l s = .next u)
    (notDue : l = .tick → s.cnt + 1 ≠ s.cfg.th) : refreshCount (l :: ls) s = refreshCount ls u := by
  simpa [refreshCount, hrun, refreshDue] using notDue

/-- A flip before `n` flips makes `1 + n`: only their parity shows in a bit. -/
theorem not_xor_ofNat (b : Bit) (n : Nat) : ~~~b ^^^ BitVec.ofNat 1 n = b ^^^ BitVec.ofNat 1 (1 + n) := by
  rw [BitVec.ofNat_add]
  generalize BitVec.ofNat 1 n = m
  revert b m
  decide

/-- A bit holds the parity of a number. -/
theorem ofNat_mod_two (n : Nat) : BitVec.ofNat 1 (n % 2) = BitVec.ofNat 1 n := BitVec.eq_of_toNat_eq (by simp)

namespace DisplayRun

variable {s t : State} {ls : List Line}

theorem runLines_eq (h : DisplayRun s ls t) : runLines ls s = .next t := by
  induction h with
  | nil s => rfl
  | cons hrun _ _ _ ih => rw [runLines, hrun, andThen_next, ih]

theorem cfg_eq (h : DisplayRun s ls t) : t.cfg = s.cfg := by
  induction h with
  | nil s => rfl
  | cons _ hcfg _ _ ih => rw [ih, hcfg]

/-- A refresh takes `TH` ticks out of the counter, and no other line loses one (R141). -/
theorem ticks_conserved (h : DisplayRun s ls t) :
    t.cnt + s.cfg.th * refreshCount ls s = s.cnt + tickCount ls := by
  induction h with
  | nil s => rfl
  | cons hrun hcfg hstep _ ih =>
    rw [hcfg] at ih
    rw [tickCount_cons]
    cases hstep with
    | refresh due cnt =>
      rw [refreshCount_of_refresh hrun due, Nat.mul_add, Nat.mul_one]
      have hk : tickCount [.tick] = 1 := rfl
      omega
    | keep notDue cnt =>
      rw [refreshCount_of_keep hrun notDue]
      omega

/-- The cursor flips once a refresh (R24). -/
theorem cur_eq (h : DisplayRun s ls t) : t.cur = s.cur ^^^ BitVec.ofNat 1 (refreshCount ls s) := by
  induction h with
  | nil s => exact BitVec.xor_zero.symm
  | @cons s u t l ls hrun _ hstep _ ih =>
    cases hstep with
    | refresh due _ cur =>
      rw [refreshCount_of_refresh hrun due, ih, cur, not_xor_ofNat]
    | keep notDue _ cur => rw [refreshCount_of_keep hrun notDue, ih, cur]

/-- Without a refresh the latch holds its value (R142). -/
theorem segN_of_no_refresh (h : DisplayRun s ls t) (hn : refreshCount ls s = 0) : t.segN = s.segN := by
  induction h with
  | nil s => rfl
  | cons hrun _ hstep _ ih =>
    cases hstep with
    | refresh due =>
      rw [refreshCount_of_refresh hrun due] at hn
      omega
    | keep notDue _ _ segN =>
      rw [refreshCount_of_keep hrun notDue] at hn
      rw [ih hn, segN]

theorem cur_of_no_refresh (h : DisplayRun s ls t) (hn : refreshCount ls s = 0) : t.cur = s.cur := by
  rw [h.cur_eq, hn]
  exact BitVec.xor_zero

/-- A trace with a refresh splits at its last one (R142). -/
theorem last_refresh (h : DisplayRun s ls t) (hn : refreshCount ls s ≠ 0) :
    ∃ l1 l2 u v, ls = l1 ++ .tick :: l2 ∧ runLines l1 s = .next u ∧ u.cnt + 1 = u.cfg.th ∧
      runLine .tick u = .next v ∧ runLines l2 v = .next t ∧ refreshCount l2 v = 0 ∧
      t.segN = ~~~(segEncode s.cfg (memRead u.ds t.cur)) := by
  induction h with
  | nil s => exact absurd rfl hn
  | @cons s w t l ls hrun hcfg hstep hrest ih =>
    by_cases hlater : refreshCount ls w = 0
    · cases hstep with
      | refresh due _ _ segN =>
        have hseg := (hrest.segN_of_no_refresh hlater).trans segN
        rw [← hrest.cur_of_no_refresh hlater] at hseg
        exact ⟨[], ls, s, w, rfl, rfl, due, hrun, hrest.runLines_eq, hlater, hseg⟩
      | keep notDue => exact absurd ((refreshCount_of_keep hrun notDue).trans hlater) hn
    · obtain ⟨l1, l2, u, v, rfl, h1, hdue, htick, h2, hlast, hseg⟩ := ih hlater
      have hrun1 : runLines (l :: l1) s = .next u := by rw [runLines, hrun, andThen_next, h1]
      exact ⟨l :: l1, l2, u, v, rfl, hrun1, hdue, htick, h2, hlast, hcfg ▸ hseg⟩

end DisplayRun

/-- Settles O19: ticks are conserved and the counter ends below `TH`, so the refreshes are the quotient and the counter the
remainder; the cursor flips once a refresh. -/
theorem tickCountLaw : Obligations.TickCountLaw := by
  intro s ls h hls
  obtain ⟨t, ht, hinv⟩ := exists_displayRun h hls
  have hlt : t.cnt < s.cfg.th := ht.cfg_eq ▸ hinv.counter
  obtain ⟨hdiv, hmod⟩ := (Nat.div_mod_unique (legal_th_pos h.legal)).2 ⟨ht.ticks_conserved, hlt⟩
  refine ⟨t, ht.runLines_eq, hmod.symm, ?_, hdiv.symm⟩
  rw [hdiv, ht.cur_eq, ofNat_mod_two]

/-- Settles O20: with a refresh, the trace splits at its last one, after which cursor and latch stay as it left them. -/
theorem latchShowsLastRefresh : Obligations.LatchShowsLastRefresh := by
  intro s ls h hls
  obtain ⟨t, ht, -⟩ := exists_displayRun h hls
  exact ⟨t, ht.runLines_eq, fun hn => ⟨ht.segN_of_no_refresh hn, ht.cur_of_no_refresh hn⟩, ht.last_refresh⟩

end Sys2Proof.Machine

/-! ## The keypad scanner: what 42_keypad_scanner.md says of it -/

namespace Sys2Proof.Machine

/-! ### The column a nibble names (R94, R164) -/

/-- The lowest column that reads 0. -/
theorem columnOf_eq_some : ∀ {q : Nibble} {col : Fin 4},
    columnOf q = some col ↔ q.getLsbD col.val = false ∧ ∀ col' < col, q.getLsbD col'.val = true := by decide

theorem columnOf_eq_none : ∀ {q : Nibble}, columnOf q = none ↔ q = 0b1111#4 := by decide

theorem eq_high_iff : ∀ {q : Nibble}, q = 0b1111#4 ↔ ∀ col : Fin 4, q.getLsbD col.val = true := by decide

theorem resolve_of_column {q : Nibble} {col : Fin 4} (h : columnOf q = some col) (c : Config) (r : Fin 4) :
    resolve c r q = c.keyAt r col := by rw [resolve, h]

@[simp] theorem resolve_high (c : Config) (r : Fin 4) : resolve c r 0b1111#4 = noKey := rfl

theorem legal_keyAt_ne_noKey {c : Config} (h : c.Legal) (r col : Fin 4) : c.keyAt r col ≠ noKey := fun hk =>
  noKey_notMem_keyCodes (hk ▸ legal_keyAt h r col)

/-- No entry of a legal `KEYMAP` is `NOKEY`, so a row gives no key only when no column is low. -/
theorem resolve_eq_noKey {c : Config} (h : c.Legal) {r : Fin 4} {q : Nibble} :
    resolve c r q = noKey ↔ q = 0b1111#4 := by
  refine ⟨fun hk => ?_, fun hq => hq ▸ resolve_high c r⟩
  cases hcol : columnOf q with
  | none => exact columnOf_eq_none.1 hcol
  | some col => exact absurd (resolve_of_column hcol c r ▸ hk) (legal_keyAt_ne_noKey h r col)

theorem getLsbD_of_low_bits {q : Nibble} {n i : Nat} (h : q.extractLsb' 0 n = BitVec.allOnes n) (hi : i < n) :
    q.getLsbD i = true := by
  simpa [hi] using congrArg (·.getLsbD i) h

/-- Settles O22: each clause names the lowest column that reads 0; the range is that of the entries of `KEYMAP`. -/
theorem lowestLowColumnWins : Obligations.LowestLowColumnWins := by
  intro c r q
  refine ⟨fun h0 => ?_, fun h0 h1 => ?_, fun hlow h2 => ?_, fun hlow h3 => ?_, fun hq => hq ▸ resolve_high c r,
    fun hc => isRawKey_resolve hc r q⟩
  · exact resolve_of_column (columnOf_eq_some.2 ⟨h0, fun _ h => absurd h (Fin.not_lt_zero _)⟩) c r
  · refine resolve_of_column (columnOf_eq_some.2 ⟨h1, fun col' hcol' => ?_⟩) c r
    obtain rfl : col' = 0 := by omega
    exact h0
  · exact resolve_of_column (columnOf_eq_some.2 ⟨h2, fun _ hcol' => getLsbD_of_low_bits hlow hcol'⟩) c r
  · exact resolve_of_column (columnOf_eq_some.2 ⟨h3, fun _ hcol' => getLsbD_of_low_bits hlow hcol'⟩) c r

/-! ### The row operations and the settle delay (R160 to R163, R170) -/

/-- Settles O23: `ROW0` is enabled at phase 0, which pulls row 0 low. -/
theorem row0StartsNewScan : Obligations.Row0StartsNewScan := by
  intro s hc hp
  exact ⟨by simp [rowN, hp], execRow0_eq_next.2 ⟨hc, hp, rfl⟩⟩

/-- Settles O24: each later row is enabled at its own phase, and `ROW3` leaves the phases that pull a row low. -/
theorem laterRowsKeepEarlierKey : Obligations.LaterRowsKeepEarlierKey := by
  intro s hc
  refine ⟨fun hp => ⟨by simp [rowN, hp], ?_⟩, fun hp => ⟨by simp [rowN, hp], ?_⟩, fun hp => ⟨by simp [rowN, hp], ?_⟩⟩
  · exact execRow1_eq_next.2 ⟨hc, hp, rfl⟩
  · exact execRow2_eq_next.2 ⟨hc, hp, rfl⟩
  · exact ⟨_, execRow3_eq_next.2 ⟨hc, hp, rfl⟩, rowN_eq_high (by simp), rfl⟩

/-- Settles O27: `SETTLE` is enabled at phase 4, where no row is low. -/
theorem settleOnlyAdvances : Obligations.SettleOnlyAdvances := by
  intro s hc hp
  exact ⟨rowN_eq_high (by simp [hp]), execSettle_eq_next.2 ⟨hc, hp, rfl⟩⟩

/-! ### The key of a whole scan (R165) -/

/-- Rows are compared by their nibbles: a legal row gives no key exactly when it reads `1111`. -/
theorem scanKey_eq {c : Config} (h : c.Legal) (q : Fin 4 → Nibble) :
    scanKey c q =
      if q 0 ≠ 0b1111#4 then resolve c 0 (q 0)
      else if q 1 ≠ 0b1111#4 then resolve c 1 (q 1)
      else if q 2 ≠ 0b1111#4 then resolve c 2 (q 2)
      else if q 3 ≠ 0b1111#4 then resolve c 3 (q 3)
      else noKey := by
  simp only [scanKey, ne_eq, resolve_eq_noKey h]
  by_cases h3 : q 3 = 0b1111#4
  · simp [h3]
  · simp [h3]

/-- The rows above the lowest low one are not looked at. -/
theorem scanKey_of_lowest_row {c : Config} (h : c.Legal) {q : Fin 4 → Nibble} {r : Fin 4} (hr : q r ≠ 0b1111#4)
    (hbelow : ∀ r' < r, q r' = 0b1111#4) : scanKey c q = resolve c r (q r) := by
  rw [scanKey_eq h]
  match r with
  | 0 => simp [hr]
  | 1 => simp [hr, hbelow 0]
  | 2 => simp [hr, hbelow 0, hbelow 1]
  | 3 => simp [hr, hbelow 0, hbelow 1, hbelow 2]

theorem scanKey_of_high (c : Config) {q : Fin 4 → Nibble} (h : ∀ r, q r = 0b1111#4) : scanKey c q = noKey := by
  simp [scanKey, h]

/-! ### Ticks between the lines of F (R70, R165) -/

/-- A `TICK` line changes only the display registers, the encoder net and the input levels. -/
theorem runLine_tick_eq {s : State} (hc : s.cfg.Legal) :
    ∃ m, runLine .tick s = .next (withDisplayOf m { s with pins := tickClock.pins }) := by
  refine ⟨afterTick { s with pins := tickClock.pins }, (exec_tick (by exact hc)).trans (congrArg _ ?_)⟩
  exact afterTick_eq_withDisplayOf rfl ⟨rfl, rfl, rfl, rfl⟩ (.inl rfl)

/-- A line of F gives the same answer whatever the display registers and the earlier input levels are. -/
theorem runLine_withDisplayOf {l : Line} (hl : l.clock.fStep = true) (m s : State) (p : Pins) :
    runLine l (withDisplayOf m { s with pins := p }) = keepDisplayOf m (runLine l s) := by
  rw [runLine_f _ l hl, runLine_f _ l hl, exec_withDisplayOf _ _ (ofDisplay_decodePh _)]
  rfl

/-- A `RESET` line reads no register. -/
theorem runLine_reset_withDisplayOf (m s : State) (p : Pins) :
    runLine .reset (withDisplayOf m { s with pins := p }) = runLine .reset s := rfl

/-- No line writes the parameters (R36). -/
theorem runLine_cfg {s t : State} {l : Line} (h : runLine l s = .next t) : t.cfg = s.cfg := by
  cases l with
  | reset =>
    obtain ⟨-, rfl⟩ := takeReset_eq_next.1 h
    rfl
  | tick => exact (exec_cfg (i := .tick) h).trans rfl
  | fCol _ | f | fReady _ =>
    rw [runLine_f s _ rfl] at h
    exact (exec_cfg h).trans rfl

/-- A trace with its `TICK` lines left out. -/
def withoutTicks (ls : List Line) : List Line := ls.filter (· ≠ .tick)

@[simp] theorem withoutTicks_nil : withoutTicks [] = [] := rfl

@[simp] theorem withoutTicks_append (l1 l2 : List Line) :
    withoutTicks (l1 ++ l2) = withoutTicks l1 ++ withoutTicks l2 := List.filter_append ..

@[simp] theorem withoutTicks_tick_cons (ls : List Line) : withoutTicks (.tick :: ls) = withoutTicks ls := rfl

theorem withoutTicks_cons {l : Line} (h : l ≠ .tick) (ls : List Line) :
    withoutTicks (l :: ls) = l :: withoutTicks ls := List.filter_cons_of_pos (decide_eq_true h)

@[simp] theorem withoutTicks_ticks (n : Nat) : withoutTicks (ticks n) = [] := by
  induction n with
  | zero => rfl
  | succ n ih => exact ih

/-- The `TICK` lines of a trace leave no mark on agent F: with them left out, the trace ends in the same state but for
the display registers, the encoder net and the input levels. -/
theorem runLines_of_withoutTicks {ls : List Line} {s t : State} (hc : s.cfg.Legal)
    (h : runLines (withoutTicks ls) s = .next t) (m : State) (p : Pins) :
    ∃ m' p', runLines ls (withDisplayOf m { s with pins := p }) = .next (withDisplayOf m' { t with pins := p' }) := by
  induction ls generalizing s m p with
  | nil =>
    cases h
    exact ⟨m, p, rfl⟩
  | cons l ls ih =>
    cases l with
    | tick =>
      obtain ⟨m1, htick⟩ := runLine_tick_eq (s := withDisplayOf m { s with pins := p }) hc
      rw [runLines, htick]
      exact ih hc h m1 tickClock.pins
    | reset =>
      obtain ⟨u, hu, hrest⟩ := andThen_eq_next.1 h
      rw [runLines, runLine_reset_withDisplayOf, hu]
      exact ih (runLine_cfg hu ▸ hc) hrest u u.pins
    | fCol _ | f | fReady _ =>
      obtain ⟨u, hu, hrest⟩ := andThen_eq_next.1 h
      rw [runLines, runLine_withDisplayOf rfl, hu]
      exact ih (runLine_cfg hu ▸ hc) hrest m u.pins

/-- Settles O25: without its ticks the trace is the four row lines, and the ticks leave no mark on F. -/
theorem scanResultLaw : Obligations.ScanResultLaw := by
  intro s q a b c hc hp
  obtain ⟨m, p, hrun⟩ := runLines_of_withoutTicks
    (ls := [.fCol (q 0)] ++ ticks a ++ [.fCol (q 1)] ++ ticks b ++ [.fCol (q 2)] ++ ticks c ++ [.fCol (q 3)]) hc
    (by simpa [withoutTicks_cons] using runLines_rows hc hp q) s s.pins
  exact ⟨_, hrun, rfl, rfl, rfl, rfl, rfl, rfl, scanKey_eq hc q⟩

/-! ### The ideal keypad (R168, R169) -/

theorem getLsbD_idealColumns (down : Fin 4 → Fin 4 → Bool) (r col : Fin 4) :
    (idealColumns down r).getLsbD col.val = !down r col := by
  unfold idealColumns
  match col with
  | 0 | 1 | 2 | 3 => exact BitVec.getLsbD_ofBoolListLE

theorem idealColumns_eq_high {down : Fin 4 → Fin 4 → Bool} {r : Fin 4} :
    idealColumns down r = 0b1111#4 ↔ ∀ col, down r col = false := by
  rw [eq_high_iff]
  exact forall_congr' fun col => by rw [getLsbD_idealColumns, Bool.not_eq_true']

/-- Settles O26: below the smallest closed position no row is low, and in its row no lower column is. -/
theorem idealScanPicksLowestPosition : Obligations.IdealScanPicksLowestPosition := by
  intro s down hc hp q
  refine ⟨_, runLines_rows hc hp q, fun hopen => ?_, fun r col hdown hmin => ?_⟩
  · exact scanKey_of_high _ fun r => idealColumns_eq_high.2 (hopen r)
  · have hopen : ∀ r' col', 4 * r'.val + col'.val < 4 * r.val + col.val → down r' col' = false := by
      intro r' col' hlt
      exact Bool.eq_false_iff.2 fun hd => absurd (hmin r' col' hd) (by omega)
    have hcol : columnOf (q r) = some col := by
      refine columnOf_eq_some.2 ⟨?_, fun col' hlt => ?_⟩
      · rw [getLsbD_idealColumns, hdown, Bool.not_true]
      · rw [getLsbD_idealColumns, hopen r col' (by omega), Bool.not_false]
    have hrow : q r ≠ 0b1111#4 := fun h => by simp [columnOf_eq_none.2 h] at hcol
    have hbelow : ∀ r' < r, q r' = 0b1111#4 := fun r' hlt => idealColumns_eq_high.2 fun col' => hopen r' col' (by omega)
    exact (scanKey_of_lowest_row hc hrow hbelow).trans (resolve_of_column hcol _ r)

end Sys2Proof.Machine

/-! ## The debounce filter: what 43_debounce_filter.md says of it -/

namespace Sys2Proof.Machine

/-! ### The three branches of `FILTER` (R181) -/

theorem execFilter_of_noKey {s : State} (hc : s.cfg.Legal) (hp : s.ph = 5#3) (hk : s.rk = noKey) :
    execFilter s = .next { s with prev := s.rk, last := noKey, ev := noKey, ph := 0#3 } := by
  simp [execFilter_eq hc hp, hk]

theorem execFilter_of_accepted {s : State} (hc : s.cfg.Legal) (hp : s.ph = 5#3) (hk : s.rk ≠ noKey)
    (hprev : s.rk = s.prev) (hlast : s.rk ≠ s.last) :
    execFilter s = .next { s with prev := s.rk, last := s.rk, ev := s.rk, ph := 6#3 } := by
  have haccept : s.rk = s.prev ∧ s.rk ≠ s.last := ⟨hprev, hlast⟩
  rw [execFilter_eq hc hp, if_neg hk, if_pos haccept, if_pos ⟨hk, haccept⟩, if_pos ⟨hk, haccept⟩]

theorem execFilter_of_ignored {s : State} (hc : s.cfg.Legal) (hp : s.ph = 5#3) (hk : s.rk ≠ noKey)
    (hignore : s.rk ≠ s.prev ∨ s.rk = s.last) :
    execFilter s = .next { s with prev := s.rk, ev := noKey, ph := 0#3 } := by
  have hnot : ¬ (s.rk = s.prev ∧ s.rk ≠ s.last) := by tauto
  have hnot' : ¬ (s.rk ≠ noKey ∧ s.rk = s.prev ∧ s.rk ≠ s.last) := fun h => hnot h.2
  rw [execFilter_eq hc hp, if_neg hk, if_neg hnot, if_neg hnot', if_neg hnot']

/-- Settles O28: `FILTER` is enabled at phase 5, where no row is low, and takes one of its three branches. -/
theorem filterDecides : Obligations.FilterDecides := by
  intro s hc hp
  exact ⟨rowN_eq_high (by simp [hp]), execFilter_of_noKey hc hp, execFilter_of_accepted hc hp,
    execFilter_of_ignored hc hp⟩

/-! ### One scan cycle (R111, R181, R200, R206) -/

/-- The state a scan cycle leaves when the scan returned `k` and the filter emitted nothing, with `l` as the key last
accepted. -/
def afterSilentCycle (s : State) (k l : Byte) : State :=
  { s with pins := Line.f.clock.pins, rk := k, prev := k, last := l, ev := noKey, ph := 0#3 }

/-- The state a scan cycle leaves when the key `k` was accepted, acted on and, if a digit, handed over. -/
def afterEventCycle (s : State) (k : Byte) : State :=
  { s with
    pins := if isDigit k then (Line.fReady true).clock.pins else Line.f.clock.pins
    rk := k, prev := k, last := k, ev := k
    ds := actDisplay s.cfg s.ds k
    tx := if isDigit k then s.tx ++ [k] else s.tx
    ph := 0#3 }

/-- A cycle in which the filter emitted nothing ends there. -/
theorem finishCycle_of_scan {s : State} (hp : s.ph = 0#3) : finishCycle s = .next s := by simp [finishCycle, hp]

/-- An event is dispatched, and a digit is then handed over (R200, R206). -/
theorem finishCycle_of_event {s : State} (hc : s.cfg.Legal) (hp : s.ph = 6#3)
    (ht : isDigit s.ds.tens = true) (hu : isDigit s.ds.units = true) :
    finishCycle s = .next
      { s with
        pins := if isDigit s.ev then (Line.fReady true).clock.pins else Line.f.clock.pins
        ds := actDisplay s.cfg s.ds s.ev
        tx := if isDigit s.ev then s.tx ++ [s.ev] else s.tx
        ph := 0#3 } := by
  have hdispatch : runLine .f s = .next _ :=
    (runLine_of_phase rfl hp).trans (execDispatch_digits (by exact hc) (by exact hp) ht hu)
  have hsend : ∀ u : State, u.cfg.Legal → u.ph = 7#3 → runLine (.fReady true) u = .next _ := fun u h p =>
    (runLine_of_phase rfl p).trans (execSend_eq_next.2 ⟨h, p, rfl⟩)
  rw [finishCycle, if_pos hp, hdispatch, andThen_next]
  cases hd : isDigit s.ev with
  | true => exact hsend _ hc rfl
  | false => rfl

section CycleRules

variable {s t : State} {q : Fin 4 → Nibble} {k : Byte}

/-- A scan cycle is the filter's work on the scan result, and then what the event asks for. -/
theorem cycle_eq (hc : s.cfg.Legal) (hp : s.ph = 0#3) (hk : scanKey s.cfg q = k) :
    cycle q s = andThen (execFilter { s with pins := Line.f.clock.pins, rk := k, ph := 5#3 }) finishCycle := by
  rw [cycle, runLines_scanLines hc hp, hk]

theorem cycle_of_noKey (hc : s.cfg.Legal) (hp : s.ph = 0#3) (hk : scanKey s.cfg q = noKey) :
    cycle q s = .next (afterSilentCycle s noKey noKey) := by
  rw [cycle_eq hc hp hk, execFilter_of_noKey (by exact hc) rfl rfl, andThen_next]
  exact finishCycle_of_scan rfl

theorem cycle_of_ignored (hc : s.cfg.Legal) (hp : s.ph = 0#3) (hk : scanKey s.cfg q = k) (hne : k ≠ noKey)
    (hignore : k ≠ s.prev ∨ k = s.last) : cycle q s = .next (afterSilentCycle s k s.last) := by
  rw [cycle_eq hc hp hk, execFilter_of_ignored (by exact hc) rfl hne hignore, andThen_next]
  exact finishCycle_of_scan rfl

theorem cycle_of_accepted (h : Inv s) (hp : s.ph = 0#3) (hk : scanKey s.cfg q = k) (hne : k ≠ noKey)
    (hprev : k = s.prev) (hlast : k ≠ s.last) : cycle q s = .next (afterEventCycle s k) := by
  rw [cycle_eq h.legal hp hk, execFilter_of_accepted (by exact h.legal) rfl hne hprev hlast, andThen_next]
  exact finishCycle_of_event h.legal rfl h.tens h.units

theorem runLines_keeps_inv {ls : List Line} (h : Inv s) (hrun : runLines ls s = .next t) : Inv t := by
  induction ls generalizing s with
  | nil =>
    cases hrun
    exact h
  | cons l ls ih =>
    obtain ⟨u, hu, hrest⟩ := andThen_eq_next.1 hrun
    exact ih (runLine_keeps_inv h hu).1 hrest

/-- A line run only when `b` holds (R111: "if `ph = 6`", "if `ph = 7`"). -/
theorem inv_of_optional_line {b : Prop} [Decidable b] {l : Line} (h : Inv s)
    (hrun : (if b then runLine l s else .next s) = .next t) : Inv t := by
  split_ifs at hrun
  · exact (runLine_keeps_inv h hrun).1
  · cases hrun
    exact h

theorem finishCycle_keeps_inv (h : Inv s) (hrun : finishCycle s = .next t) : Inv t := by
  obtain ⟨u, hu, ht⟩ := andThen_eq_next.1 hrun
  exact inv_of_optional_line (inv_of_optional_line h hu) ht

theorem cycle_keeps_inv (h : Inv s) (hrun : cycle q s = .next t) : Inv t := by
  obtain ⟨u, hu, ht⟩ := andThen_eq_next.1 hrun
  exact finishCycle_keeps_inv (runLines_keeps_inv h hu) ht

end CycleRules

/-- Everything a scan cycle can do, as R181 decides: an empty scan re-arms the filter, a second agreeing scan of a key not
already accepted is an event, and any other scan of a key is ignored. -/
inductive CycleOutcome (s : State) : State → Prop
  | release : CycleOutcome s (afterSilentCycle s noKey noKey)
  | accept {k : Byte} (isKey : k ≠ noKey) (agrees : k = s.prev) (fresh : k ≠ s.last) :
      CycleOutcome s (afterEventCycle s k)
  | ignore {k : Byte} (isKey : k ≠ noKey) (reason : k ≠ s.prev ∨ k = s.last) :
      CycleOutcome s (afterSilentCycle s k s.last)

/-- From a state of the invariant at the start of the loop a scan cycle completes. -/
theorem exists_cycleOutcome {s : State} (h : Inv s) (hp : s.ph = 0#3) (q : Fin 4 → Nibble) :
    ∃ t, cycle q s = .next t ∧ Inv t ∧ CycleOutcome s t := by
  have hrun : ∃ t, cycle q s = .next t ∧ CycleOutcome s t := by
    by_cases hk : scanKey s.cfg q = noKey
    · exact ⟨_, cycle_of_noKey h.legal hp hk, .release⟩
    · by_cases hignore : scanKey s.cfg q ≠ s.prev ∨ scanKey s.cfg q = s.last
      · exact ⟨_, cycle_of_ignored h.legal hp rfl hk hignore, .ignore hk hignore⟩
      · obtain ⟨hprev, hlast⟩ : scanKey s.cfg q = s.prev ∧ scanKey s.cfg q ≠ s.last := by tauto
        exact ⟨_, cycle_of_accepted h hp rfl hk hprev hlast, .accept hk hprev hlast⟩
  obtain ⟨t, ht, hout⟩ := hrun
  exact ⟨t, ht, cycle_keeps_inv h ht, hout⟩

namespace CycleOutcome

variable {s t : State}

theorem ph_eq (h : CycleOutcome s t) : t.ph = 0#3 := by cases h <;> rfl

/-- `prev` takes `rk` in all three branches. -/
theorem prev_eq (h : CycleOutcome s t) : t.prev = t.rk := by cases h <;> rfl

/-- An event is for the key of this scan and of the one before, which was not the key last accepted and now is. -/
theorem of_event (h : CycleOutcome s t) (he : t.ev ≠ noKey) :
    t.ev = t.rk ∧ t.rk = s.prev ∧ t.rk ≠ s.last ∧ t.last = t.rk := by
  cases h with
  | release => exact absurd rfl he
  | accept _ agrees fresh => exact ⟨rfl, agrees, fresh, rfl⟩
  | ignore => exact absurd rfl he

/-- Only an empty scan or an event changes the key last accepted (R183). -/
theorem last_eq (h : CycleOutcome s t) (hk : t.rk ≠ noKey) (he : t.ev = noKey) : t.last = s.last := by
  cases h with
  | release => exact absurd rfl hk
  | accept isKey => exact absurd he isKey
  | ignore => rfl

/-- From the re-armed filter no key has been read before, so the first cycle emits nothing. -/
theorem silent_of_rearmed (h : CycleOutcome s t) (hs : Rearmed s) : t.ev = noKey := by
  by_contra he
  obtain ⟨-, hprev, hlast, -⟩ := h.of_event he
  exact hlast (hprev.trans (hs.prev.trans hs.last.symm))

/-- From the re-armed filter the second of two agreeing cycles emits its key, `NOKEY` if it has none. -/
theorem second_event_of_rearmed {u : State} (hu : CycleOutcome s u) (ht : CycleOutcome u t) (hs : Rearmed s)
    (hagree : u.rk = t.rk) : t.ev = t.rk := by
  cases ht with
  | release => rfl
  | accept => rfl
  | @ignore k isKey reason =>
    have hrk : u.rk = k := hagree
    have hlast : u.last = noKey :=
      (hu.last_eq (hrk ▸ isKey) (hu.silent_of_rearmed hs)).trans hs.last
    obtain hne | heq := reason
    · exact absurd (hrk.symm.trans hu.prev_eq.symm) hne
    · exact absurd (heq.trans hlast) isKey

end CycleOutcome

/-- Settles O29: an event of the second cycle is for its own scan result and for `prev`, the first cycle's. -/
theorem eventNeedsTwoAgreeingScans : Obligations.EventNeedsTwoAgreeingScans := by
  intro s a b h hp
  obtain ⟨u, hrunU, hinv, hu⟩ := exists_cycleOutcome h hp a
  obtain ⟨t, hrunT, -, ht⟩ := exists_cycleOutcome hinv hu.ph_eq b
  refine ⟨u, t, hrunU, hrunT, ht.ph_eq, fun he => ?_,
    fun hs => ⟨hu.silent_of_rearmed hs, hu.second_event_of_rearmed ht hs, fun hk => ?_⟩⟩
  · obtain ⟨hev, hprev, -, -⟩ := ht.of_event he
    exact ⟨(hev.trans (hprev.trans hu.prev_eq)).symm, hev.symm⟩
  · by_contra he
    obtain ⟨hev, -⟩ := ht.of_event he
    exact he (hev.trans hk)

/-! ### The log of a list of scan cycles (R183) -/

/-- The log of a run of scan cycles: after each cycle its scan result and its event. -/
inductive CycleRun : State → List (Byte × Byte) → Prop
  | nil (s : State) : CycleRun s []
  | cons {s u : State} {log : List (Byte × Byte)} (step : CycleOutcome s u) (rest : CycleRun u log) :
      CycleRun s ((u.rk, u.ev) :: log)

theorem cycleLog_cons {s u : State} {q : Fin 4 → Nibble} (hrun : cycle q s = .next u) (qs : List (Fin 4 → Nibble)) :
    cycleLog (q :: qs) s = (u.rk, u.ev) :: cycleLog qs u := by
  rw [cycleLog, hrun]

/-- From a state of the invariant every cycle of a list completes, so the log has an entry for each. -/
theorem cycleRun_cycleLog {s : State} (h : Inv s) (hp : s.ph = 0#3) (qs : List (Fin 4 → Nibble)) :
    CycleRun s (cycleLog qs s) ∧ (cycleLog qs s).length = qs.length := by
  induction qs generalizing s with
  | nil => exact ⟨.nil s, rfl⟩
  | cons q qs ih =>
    obtain ⟨u, hrun, hinv, hout⟩ := exists_cycleOutcome h hp q
    obtain ⟨hrest, hlen⟩ := ih hinv hout.ph_eq
    rw [cycleLog_cons hrun]
    exact ⟨.cons hout hrest, congrArg (· + 1) hlen⟩

/-- A cycle after which the key `k` may be accepted again: its scan returned no key, or it emitted another key. -/
def Frees (k : Byte) (entry : Byte × Byte) : Prop := entry.1 = noKey ∨ (entry.2 ≠ noKey ∧ entry.2 ≠ k)

/-- While `k` is the key last accepted there is no event for it: some cycle must free it first. -/
theorem CycleRun.freed_before_event {s : State} {log : List (Byte × Byte)} (h : CycleRun s log)
    (hk : s.last ≠ noKey) {j : Nat} (hj : j < log.length) (he : log[j].2 = s.last) :
    ∃ (m : Nat) (hm : m < j), Frees s.last log[m] := by
  induction h generalizing j with
  | nil => exact absurd hj (Nat.not_lt_zero j)
  | @cons s u log step rest ih =>
    have hne : u.ev ≠ s.last := fun heq => by
      obtain ⟨hev, -, hlast, -⟩ := step.of_event (heq ▸ hk)
      exact hlast (hev.symm.trans heq)
    cases j with
    | zero => exact absurd he hne
    | succ j =>
      by_cases hfree : Frees s.last (u.rk, u.ev)
      · exact ⟨0, j.succ_pos, hfree⟩
      · obtain ⟨hrk, hev⟩ := not_or.1 hfree
        have hlast : u.last = s.last := step.last_eq hrk (by tauto)
        obtain ⟨m, hm, hfrees⟩ := ih (hlast ▸ hk) (Nat.lt_of_succ_lt_succ hj) (he.trans hlast.symm)
        exact ⟨m + 1, Nat.succ_lt_succ hm, hlast ▸ hfrees⟩

/-- After an event its key is the one last accepted, so a cycle between frees it before the next event for it. -/
theorem CycleRun.freed_between_events {s : State} {log : List (Byte × Byte)} (h : CycleRun s log)
    {i j : Nat} (hj : j < log.length) (hi : i < j) (hev : log[i].2 ≠ noKey) (he : log[j].2 = log[i].2) :
    ∃ (m : Nat) (hm : m < j), i < m ∧ Frees log[j].2 log[m] := by
  induction h generalizing i j with
  | nil => exact absurd hj (Nat.not_lt_zero j)
  | @cons s u log step rest ih =>
    obtain _ | j := j
    · exact absurd hi (Nat.not_lt_zero i)
    have hj' : j < log.length := Nat.lt_of_succ_lt_succ hj
    cases i with
    | zero =>
      obtain ⟨hrk, -, -, hlast⟩ := step.of_event hev
      have hlast : u.last = u.ev := hlast.trans hrk.symm
      obtain ⟨m, hm, hfrees⟩ := rest.freed_before_event (hlast ▸ hev) hj' (he.trans hlast.symm)
      refine ⟨m + 1, Nat.succ_lt_succ hm, m.succ_pos, ?_⟩
      rw [he]
      exact hlast ▸ hfrees
    | succ i =>
      obtain ⟨m, hm, him, hfrees⟩ := ih hj' (Nat.lt_of_succ_lt_succ hi) hev he
      exact ⟨m + 1, Nat.succ_lt_succ hm, Nat.succ_lt_succ him, hfrees⟩

/-- Settles O30: the log is that of a run of scan cycles, and there a key is freed between two events for it. -/
theorem noRepeatWithoutReleaseOrOtherKey : Obligations.NoRepeatWithoutReleaseOrOtherKey := by
  intro s qs h hp log
  obtain ⟨hrun, hlen⟩ := cycleRun_cycleLog h hp qs
  exact ⟨hlen, fun i j hj hi hev he => hrun.freed_between_events hj hi hev he⟩

/-! ### One key held down (R168, R183, R184, R186) -/

theorem ne_noKey_of_mem_keyCodes {k : Byte} (hk : k ∈ keyCodes) : k ≠ noKey := fun h =>
  noKey_notMem_keyCodes (h ▸ hk)

/-- A legal `KEYMAP` has each key at one position (R10, R93). -/
theorem legal_keyAt_injective {c : Config} (h : c.Legal) {r col r' col' : Fin 4}
    (heq : c.keyAt r col = c.keyAt r' col') :
    r = r' ∧ col = col' := by
  obtain ⟨-, hnodup, -⟩ := h
  have hmem : ∀ p : Fin 4 × Fin 4, p ∈ keyPositions := by decide
  exact Prod.mk.inj (List.inj_on_of_nodup_map hnodup (hmem (r, col)) (hmem (r', col')) heq)

/-- With one key held down the scan returns it (R168). -/
theorem scanKey_holding {c : Config} (h : c.Legal) {k : Byte} (hk : k ∈ keyCodes) :
    scanKey c (idealColumns (holding c [k])) = k := by
  obtain ⟨r, col, rfl⟩ := legal_key_found h hk
  obtain ⟨t, hrun, -, hlowest⟩ := idealScanPicksLowestPosition (State.initial c) (holding c [c.keyAt r col]) h rfl
  have hscan := (runLines_rows (s := State.initial c) h rfl _).symm.trans hrun
  cases hscan
  refine hlowest r col (by simp [holding]) fun r' col' hdown => ?_
  obtain ⟨rfl, rfl⟩ := legal_keyAt_injective h (show c.keyAt r' col' = c.keyAt r col by simpa [holding] using hdown)
  exact le_rfl

/-- With no key held down the scan returns no key. -/
theorem scanKey_holding_nil (c : Config) : scanKey c (idealColumns (holding c [])) = noKey :=
  scanKey_of_high c fun _ => idealColumns_eq_high.2 fun _ => by simp [holding]

/-- `HOLD k, m` and then `HOLD k, n` is `HOLD k, m + n`. -/
theorem hold_add (k : Byte) (m n : Nat) (s : State) : hold k (m + n) s = andThen (hold k m s) (hold k n) := by
  induction m generalizing s with
  | zero => rw [Nat.zero_add, hold, andThen_next]
  | succ m ih =>
    rw [Nat.succ_add, hold, hold]
    cases scan [k] s with
    | next u => exact ih u
    | fault _ => rfl
    | refused _ => rfl

theorem hold_one (k : Byte) (s : State) : hold k 1 s = scan [k] s := andThen_nothing _

theorem hold_keeps_inv {k : Byte} {n : Nat} {s t : State} (h : Inv s) (hrun : hold k n s = .next t) : Inv t := by
  induction n generalizing s with
  | zero =>
    cases hrun
    exact h
  | succ n ih =>
    obtain ⟨u, hu, hrest⟩ := andThen_eq_next.1 hrun
    exact ih (cycle_keeps_inv h hu) hrest

section HoldRules

variable {s : State} {k : Byte}

/-- The first scan of a key is no event. -/
theorem hold_one_of_new (h : Inv s) (hp : s.ph = 0#3) (hk : k ∈ keyCodes) (hprev : k ≠ s.prev) :
    hold k 1 s = .next (afterSilentCycle s k s.last) :=
  (hold_one k s).trans <|
    cycle_of_ignored h.legal hp (scanKey_holding h.legal hk) (ne_noKey_of_mem_keyCodes hk) (.inl hprev)

/-- A key that is neither the one read last nor the one last accepted is accepted at its second scan. -/
theorem hold_two_of_new (h : Inv s) (hp : s.ph = 0#3) (hk : k ∈ keyCodes) (hprev : k ≠ s.prev)
    (hlast : k ≠ s.last) : hold k 2 s = .next (afterEventCycle s k) := by
  have hfirst := hold_one_of_new h hp hk hprev
  rw [hold_add k 1 1, hfirst, andThen_next, hold_one]
  exact cycle_of_accepted (hold_keeps_inv h hfirst) rfl (scanKey_holding h.legal hk) (ne_noKey_of_mem_keyCodes hk)
    rfl hlast

/-- From the re-armed filter any key is accepted at its second scan (R184). -/
theorem hold_two_of_rearmed (h : Inv s) (hs : Rearmed s) (hk : k ∈ keyCodes) :
    hold k 2 s = .next (afterEventCycle s k) :=
  have hne := ne_noKey_of_mem_keyCodes hk
  hold_two_of_new h hs.start hk (hs.prev ▸ hne) (hs.last ▸ hne)

/-- Another scan of the key last accepted is ignored. -/
theorem hold_one_of_accepted (h : Inv s) (hp : s.ph = 0#3) (hk : k ∈ keyCodes) (hlast : s.last = k) :
    hold k 1 s = .next (afterSilentCycle s k k) := by
  rw [hold_one, scan, cycle_of_ignored h.legal hp (scanKey_holding h.legal hk) (ne_noKey_of_mem_keyCodes hk)
    (.inr hlast.symm), hlast]

/-- It stays ignored, however long it is held (R185). -/
theorem hold_succ_of_accepted (h : Inv s) (hp : s.ph = 0#3) (hk : k ∈ keyCodes) (hlast : s.last = k) (n : Nat) :
    hold k (n + 1) s = .next (afterSilentCycle s k k) := by
  induction n with
  | zero => exact hold_one_of_accepted h hp hk hlast
  | succ n ih =>
    rw [hold_add k (n + 1) 1, ih, andThen_next]
    exact hold_one_of_accepted (hold_keeps_inv h ih) rfl hk rfl

end HoldRules

/-- Settles O31: the key is accepted at the second scan, and from then on it is the key last accepted. -/
theorem heldKeyAcceptedOnce : Obligations.HeldKeyAcceptedOnce := by
  intro s k n h hs hk hn
  have hone := hold_one_of_new h hs.start hk (hs.prev ▸ ne_noKey_of_mem_keyCodes hk)
  have htwo := hold_two_of_rearmed h hs hk
  obtain ⟨m, rfl⟩ := Nat.exists_eq_add_of_le hn
  cases m with
  | zero => exact ⟨_, _, _, hone, rfl, rfl, rfl, htwo, rfl, rfl, htwo, rfl, rfl, rfl, fun hlt => absurd hlt (lt_irrefl 2)⟩
  | succ m =>
    have hrun := hold_add k 2 (m + 1) s
    rw [htwo, andThen_next, hold_succ_of_accepted (hold_keeps_inv h htwo) rfl hk rfl m] at hrun
    exact ⟨_, _, _, hone, rfl, rfl, rfl, htwo, rfl, rfl, hrun, rfl, rfl, rfl, fun _ => rfl⟩

/-- Settles O32: with no key down every row reads `1111`, and the filter's first branch is its re-armed state. -/
theorem emptyScanRearms : Obligations.EmptyScanRearms := by
  intro s k h hp hk
  have hscan : scan [] s = .next (afterSilentCycle s noKey noKey) :=
    cycle_of_noKey h.legal hp (scanKey_holding_nil s.cfg)
  have hrearmed : Rearmed (afterSilentCycle s noKey noKey) := ⟨rfl, rfl, rfl⟩
  exact ⟨_, _, hscan, hrearmed, rfl, rfl, rfl, hold_two_of_rearmed (cycle_keeps_inv h hscan) hrearmed hk, rfl⟩

/-- Settles O33: after two scans of one key the other is new to the filter. -/
theorem rolloverAcceptsWithoutRelease : Obligations.RolloverAcceptsWithoutRelease := by
  intro s j k h hs hj hk hne
  have hrunJ := hold_two_of_rearmed h hs hj
  have hinvJ := hold_keeps_inv h hrunJ
  have hrunK := hold_two_of_new hinvJ rfl hk hne.symm hne.symm
  have hrunJ' := hold_two_of_new (hold_keeps_inv hinvJ hrunK) rfl hj hne hne
  exact ⟨_, _, _, hrunJ, hrunK, hrunJ', rfl, rfl, rfl⟩

end Sys2Proof.Machine

/-! ## The input dispatcher: what 44_input_dispatcher.md says of it -/

namespace Sys2Proof.Machine

/-! ### The two-digit number (R202) -/

theorem toInt_of_digits {d : DisplayState} (ht : isDigit d.tens = true) (hu : isDigit d.units = true) :
    toInt d = some (val d.tens * 10 + val d.units) := toInt_eq_some.2 ⟨ht, hu, rfl⟩

theorem toInt_eq_none {d : DisplayState} : toInt d = none ↔ isDigit d.tens = false ∨ isDigit d.units = false := by
  simp [toInt, imp_iff_not_or]

theorem toInt_toDigits {n : Nat} (h : n < 100) : toInt (toDigits n) = some n := by
  have hu : n % 10 < 10 := Nat.mod_lt _ (by decide)
  have ht : n / 10 < 10 := by omega
  refine toInt_eq_some.2 ⟨isDigit_chr_of_lt ht, isDigit_chr_of_lt hu, ?_⟩
  simp only [toDigits, val_chr_of_lt ht, val_chr_of_lt hu]
  omega

theorem toDigits_of_toInt {d : DisplayState} {n : Nat} (h : toInt d = some n) : toDigits n = d := by
  obtain ⟨ht, hu, rfl⟩ := toInt_eq_some.1 h
  have hlt := val_lt_of_isDigit hu
  have hmod : (val d.tens * 10 + val d.units) % 10 = val d.units := by omega
  have hdiv : (val d.tens * 10 + val d.units) / 10 = val d.tens := by omega
  rw [toDigits, hmod, hdiv, chr_val_of_isDigit ht, chr_val_of_isDigit hu]

/-- Settles O40: each digit of a number below 100 is the value of its character. -/
theorem numberRoundTrip : Obligations.NumberRoundTrip :=
  ⟨fun _ => toInt_toDigits, fun _ ht hu =>
    have hn := toInt_of_digits ht hu
    ⟨_, toInt_lt hn, hn, toDigits_of_toInt hn⟩⟩

theorem decrement_increment {n : Nat} (h : n < 100) : decrement (increment n) = n := by
  unfold decrement increment
  split_ifs <;> omega

theorem increment_decrement {n : Nat} (h : n < 100) : increment (decrement n) = n := by
  unfold decrement increment
  split_ifs <;> omega

/-- The wrapping decrement of R204, as an addition modulo 100. -/
theorem decrement_eq_mod {n : Nat} (h : n < 100) : decrement n = (n + 99) % 100 := by
  unfold decrement
  split_ifs <;> omega

/-! ### The four cases of `DISPATCH` (R201, R203 to R205) -/

/-- Settles O36: the gate of the digit case is open. -/
theorem digitRotatesIntoDisplay : Obligations.DigitRotatesIntoDisplay := fun _ _ hc hp he =>
  execDspDigit_eq_next.2 ⟨hc, hp, he, rfl⟩

/-- Settles O37: the pair has a number, whose increment is written. -/
theorem incrementIsModuloHundred : Obligations.IncrementIsModuloHundred := fun _ hc hp he ht hu =>
  execDspInc_eq_next.2 ⟨hc, hp, he, _, toInt_of_digits ht hu, rfl⟩

/-- Settles O38: the pair has a number, whose decrement is written. -/
theorem decrementWrapsToNinetyNine : Obligations.DecrementWrapsToNinetyNine := fun _ hc hp he ht hu =>
  execDspDec_eq_next.2 ⟨hc, hp, he, _, toInt_of_digits ht hu, rfl⟩

/-- Settles O39: the gate of the catch-all case is open. -/
theorem otherKeyDoesNothing : Obligations.OtherKeyDoesNothing := fun _ _ hc hp he hdigit hinc hdec =>
  execDspNop_eq_next.2 ⟨hc, hp, he, hdigit, hinc, hdec, rfl⟩

/-- A pair that has no number cannot be changed (U1). -/
theorem changeNumber_of_none {s : State} (h : toInt s.ds = none) (f : Nat → Nat) :
    changeNumber s f = .fault .numberOutsideDomain := by
  simp [changeNumber, h]

/-- Settles O42: the gate of the key's operation is open, and the pair has no number. -/
theorem numberOfNonDigitsFaults : Obligations.NumberOfNonDigitsFaults := fun _ hc hp hbad =>
  have hn := toInt_eq_none.2 hbad
  ⟨fun he => (gate_open _ hc (by simp [hp, he])).trans (changeNumber_of_none hn increment),
    fun he => (gate_open _ hc (by simp [hp, he])).trans (changeNumber_of_none hn decrement)⟩

/-- Settles O41: the second operation reads back the number the first one wrote, and undoes the change. -/
theorem incrementAndDecrementUndo : Obligations.IncrementAndDecrementUndo := by
  intro s hc hp ht hu
  have hn := toInt_of_digits ht hu
  have hlt := toInt_lt hn
  refine ⟨fun he => ⟨_, _, execDspInc_eq_next.2 ⟨hc, hp, he, _, hn, rfl⟩,
      execDspDec_eq_next.2 ⟨hc, rfl, rfl, _, toInt_toDigits (increment_lt _), rfl⟩, ?_⟩,
    fun he => ⟨_, _, execDspDec_eq_next.2 ⟨hc, hp, he, _, hn, rfl⟩,
      execDspInc_eq_next.2 ⟨hc, rfl, rfl, _, toInt_toDigits (decrement_lt hlt), rfl⟩, ?_⟩⟩
  · exact (congrArg toDigits (decrement_increment hlt)).trans (toDigits_of_toInt hn)
  · exact (congrArg toDigits (increment_decrement hlt)).trans (toDigits_of_toInt hn)

/-! ### `DISPATCH` (R200) -/

/-- `DISPATCH` is the operation that space `KEY` selects for `ev`. -/
theorem exec_dispatch_of_decodeKey {s : State} {i : Instr} (h : decodeKey s.cfg s.ev = i) :
    exec .dispatch s = exec i s := h ▸ execDispatch_eq s

/-- Settles O34: a legal `KEY_INC` and `KEY_DEC` are two codes that are no digits, and space `KEY` selects the case. -/
theorem dispatchRunsItsCase : Obligations.DispatchRunsItsCase := by
  intro s hc hp
  obtain ⟨hinc, hdec⟩ := legal_keys_not_digit hc
  have hne := legal_keyDec_ne_keyInc hc
  refine ⟨rowN_eq_high (by simp [hp]), by simp [txValid, hp], fun d he => ?_, fun he => ?_, fun he => ?_,
    fun hdigit hi hd => ?_⟩
  · have hdigit : isDigit s.ev = true := he ▸ isDigit_chr d
    exact ⟨fun h => by simp [h, hinc] at hdigit, fun h => by simp [h, hdec] at hdigit,
      exec_dispatch_of_decodeKey (he ▸ decodeKey_chr s.cfg d)⟩
  · exact ⟨he ▸ hinc, he ▸ hne.symm, exec_dispatch_of_decodeKey (he ▸ decodeKey_keyInc hc)⟩
  · exact ⟨he ▸ hdec, he ▸ hne, exec_dispatch_of_decodeKey (he ▸ decodeKey_keyDec hc)⟩
  · exact exec_dispatch_of_decodeKey (decodeKey_of_wellFormed (wellFormed_dspNop.2 ⟨hdigit, hi, hd⟩))

/-- Settles O35: on two digit characters the state `DISPATCH` leaves is known, and `ev` alone chooses its phase. -/
theorem dispatchCompletes : Obligations.DispatchCompletes := fun s hc hp ht hu =>
  ⟨_, execDispatch_digits hc hp ht hu, rfl, by cases isDigit s.ev <;> simp, fun h => by simp [h]⟩

/-! ### The serial echo (R206) -/

/-- Settles O43: at phase 7 no row is low, and `SEND` is enabled. -/
theorem sendHandsOverOneByte : Obligations.SendHandsOverOneByte := fun _ hc hp =>
  ⟨txValid_eq_true.2 hp, rfl, rowN_eq_high (by simp [hp]),
    fun hready => execSend_eq_next.2 ⟨hc, hp, by simp [hready]⟩,
    fun hready => execSend_eq_next.2 ⟨hc, hp, by simp [hready]⟩⟩

/-- An F step in `SEND` with the collaborator not ready changes nothing but the input levels. -/
theorem runLine_send_not_ready {s : State} (hc : s.cfg.Legal) (hp : s.ph = 7#3) :
    runLine (.fReady false) s = .next { s with pins := (Line.fReady false).clock.pins } :=
  (runLine_of_phase rfl hp).trans (execSend_eq_next.2 ⟨hc, hp, rfl⟩)

/-- An F step in `SEND` with the collaborator ready hands the byte over. -/
theorem runLine_send_ready {s : State} (hc : s.cfg.Legal) (hp : s.ph = 7#3) :
    runLine (.fReady true) s =
      .next { s with pins := (Line.fReady true).clock.pins, tx := s.tx ++ [s.ev], ph := 0#3 } :=
  (runLine_of_phase rfl hp).trans (execSend_eq_next.2 ⟨hc, hp, rfl⟩)

/-- The wait in `SEND`, over any number of F steps. -/
theorem runLines_of_not_ready {ls : List Line} {s : State} (hc : s.cfg.Legal) (hp : s.ph = 7#3)
    (hls : ∀ l ∈ ls, l = .fReady false) : ∃ p, runLines ls s = .next { s with pins := p } := by
  induction ls generalizing s with
  | nil => exact ⟨s.pins, rfl⟩
  | cons l ls ih =>
    obtain ⟨rfl, hrest⟩ := List.forall_mem_cons.1 hls
    rw [runLines, runLine_send_not_ready hc hp]
    exact ih hc hp hrest

/-- Settles O44: without its ticks the trace is blocked F steps, and the ticks leave no mark on F. -/
theorem blockedSendHoldsForeground : Obligations.BlockedSendHoldsForeground := by
  intro s ls hc hp hls
  have hblocked : ∀ l ∈ withoutTicks ls, l = .fReady false := fun l hl => by
    obtain ⟨hmem, hne⟩ := List.mem_filter.1 hl
    exact (hls l hmem).resolve_left (of_decide_eq_true hne)
  obtain ⟨p, hwait⟩ := runLines_of_not_ready hc hp hblocked
  obtain ⟨m, p', hrun⟩ := runLines_of_withoutTicks hc hwait s s.pins
  exact ⟨_, _, hrun, ⟨rfl, rfl, rfl, rfl, rfl, rfl, rfl⟩, runLine_send_ready hc hp, rfl, rfl, rfl⟩

/-! ### Pressing a key (R111, R207) -/

/-- The state `PRESS k` leaves: the key was acted on, and then released. -/
def afterPress (s : State) (k : Byte) : State := afterSilentCycle (afterEventCycle s k) noKey noKey

theorem press_eq_hold (k : Byte) (s : State) : press k s = andThen (hold k 2 s) (scan []) := by
  rw [hold_add k 1 1, hold_one, funext (hold_one k), press]

theorem afterPress_rearmed (s : State) (k : Byte) : Rearmed (afterPress s k) := ⟨rfl, rfl, rfl⟩

/-- From the re-armed filter, `PRESS` of any key is one event for it, and keeps the invariant. -/
theorem press_of_rearmed {s : State} {k : Byte} (h : Inv s) (hs : Rearmed s) (hk : k ∈ keyCodes) :
    press k s = .next (afterPress s k) ∧ Inv (afterPress s k) := by
  have hhold := hold_two_of_rearmed h hs hk
  have hrelease : scan [] (afterEventCycle s k) = .next (afterPress s k) :=
    cycle_of_noKey h.legal rfl (scanKey_holding_nil s.cfg)
  refine ⟨?_, cycle_keeps_inv (hold_keeps_inv h hhold) hrelease⟩
  rw [press_eq_hold, hhold, andThen_next, hrelease]

theorem actDisplay_chr (c : Config) (d : DisplayState) (n : Fin 10) :
    actDisplay c d (chr n) = { units := chr n, tens := d.units } := by
  simp [actDisplay]

theorem actDisplay_keyInc {c : Config} (hc : c.Legal) {d : DisplayState} {n : Nat} (hn : toInt d = some n) :
    actDisplay c d c.keyInc = toDigits (increment n) := by
  simp [actDisplay, legal_keys_not_digit hc, hn]

theorem actDisplay_keyDec {c : Config} (hc : c.Legal) {d : DisplayState} {n : Nat} (hn : toInt d = some n) :
    actDisplay c d c.keyDec = toDigits (decrement n) := by
  simp [actDisplay, legal_keys_not_digit hc, legal_keyDec_ne_keyInc hc, hn]

theorem chr_mem_keyCodes (d : Fin 10) : chr d ∈ keyCodes := mem_keyCodes_of_isDigit (isDigit_chr d)

theorem afterPress_chr_ds (s : State) (d : Fin 10) :
    (afterPress s (chr d)).ds = { units := chr d, tens := s.ds.units } := actDisplay_chr s.cfg s.ds d

theorem afterPress_tx (s : State) (k : Byte) :
    (afterPress s k).tx = if isDigit k then s.tx ++ [k] else s.tx := rfl

/-- Settles O45: each press moves its digit into the units slot and appends it to `TX`. -/
theorem lastTwoDigitsRotationLaw : Obligations.LastTwoDigitsRotationLaw := by
  intro s d0 d1 h hs
  obtain ⟨hrun0, hinv⟩ := press_of_rearmed h hs (chr_mem_keyCodes d0)
  obtain ⟨hrun1, -⟩ := press_of_rearmed hinv (afterPress_rearmed s _) (chr_mem_keyCodes d1)
  exact ⟨_, _, hrun0, hrun1, by simp [afterPress_chr_ds], by simp [afterPress_tx], afterPress_rearmed _ _⟩

/-- A press of a key that is no digit, and whose event writes the digits of `n`, sends nothing. -/
theorem press_of_function_key {s : State} {k : Byte} {n : Nat} (h : Inv s) (hs : Rearmed s)
    (hk : k ∈ functionKeyCodes) (hact : actDisplay s.cfg s.ds k = toDigits n) (hn : n < 100) :
    ∃ t, press k s = .next t ∧ toInt t.ds = some n ∧ t.tx = s.tx ∧ Rearmed t := by
  obtain ⟨hrun, -⟩ := press_of_rearmed h hs (List.mem_append_right _ hk)
  exact ⟨_, hrun, (congrArg toInt hact).trans (toInt_toDigits hn), by simp [afterPress_tx, isDigit_of_mem k hk],
    afterPress_rearmed s k⟩

theorem legal_keys_mem_functionKeyCodes {c : Config} (h : c.Legal) :
    c.keyInc ∈ functionKeyCodes ∧ c.keyDec ∈ functionKeyCodes := by
  obtain ⟨-, -, -, -, hinc, hdec, -⟩ := h
  exact ⟨hinc, hdec⟩

/-- Settles O46: each of the two keys is a function key, whose event writes the changed number. -/
theorem pressedFunctionKeysCount : Obligations.PressedFunctionKeysCount := by
  intro s n h hs hn
  obtain ⟨hinc, hdec⟩ := legal_keys_mem_functionKeyCodes h.legal
  refine ⟨press_of_function_key h hs hinc (actDisplay_keyInc h.legal hn) (increment_lt n), ?_⟩
  rw [← decrement_eq_mod (toInt_lt hn)]
  exact press_of_function_key h hs hdec (actDisplay_keyDec h.legal hn) (decrement_lt (toInt_lt hn))

end Sys2Proof.Machine

/-! ## The events of a clock and the stops: what 60_exceptions.md says of them -/

namespace Sys2Proof.Machine

/-! ### What a step is (R232) -/

/-- A clock with neither `rst` nor `tick` nor an F step is an idle one (R232). -/
theorem step_of_idle {s : State} {c : Clock} {rest : List Clock} (hs : s.stim = c :: rest)
    (hr : c.pins.rst = false) (ht : c.pins.tick = false) (hf : c.fStep = false) :
    step s = takeIdle { s with pins := c.pins, stim := rest } := by
  simp [step, fetch, takeClock_cons hs, hr, ht, hf]

/-- Settles O13: the clock is an idle one, and the gate is open under legal parameters. -/
theorem clockWithoutEventChangesNothing : Obligations.ClockWithoutEventChangesNothing :=
  fun _ _ _ hc hs hr ht hf => (step_of_idle hs hr ht hf).trans (takeIdle_eq_next.2 ⟨hc, rfl⟩)

/-- What a step is, whether or not it answers a next state: reset, `TICK`, the operation `ph` names, or nothing, on the
state with the environment's next clock taken. -/
theorem step_eq_cases (s : State) :
    ∃ p q n, let u := { s with pins := p, stim := q, drawn := n }
      step s = takeReset u ∨ step s = exec .tick u ∨ step s = exec (decodePh u.ph) u ∨ step s = takeIdle u := by
  obtain ⟨p, q, n, hu, he⟩ := fetch_cases s
  refine ⟨p, q, n, ?_⟩
  unfold step
  rcases hf : fetch s with ⟨e, u⟩
  rw [hf] at hu he
  obtain rfl : u = _ := hu
  rcases he with rfl | rfl | rfl | rfl
  · exact .inl rfl
  · exact .inr (.inl rfl)
  · exact .inr (.inr (.inl rfl))
  · exact .inr (.inr (.inr rfl))

/-! ### Where nothing stops, and where everything does (R230, R246) -/

theorem completes_eq_true {r : Result} : completes r = true ↔ ∃ t, r = .next t := by
  cases r <;> simp [completes]

/-- Settles O49: the operation `ph` names completes under the invariant, and any other of the eight is refused. -/
theorem exactlyOneForegroundOperationEnabled : Obligations.ExactlyOneForegroundOperationEnabled := by
  intro s h
  obtain ⟨hrefused, -⟩ := operationNotSelectedIsRefused s h.legal
  refine ⟨decodePh_mem_phaseOperations s.ph, completes_eq_true.2 ⟨_, exec_tick h.legal⟩,
    fun i hi => ⟨fun hdone => ?_, ?_⟩⟩
  · by_contra hne
    rw [hrefused i hi hne] at hdone
    cases hdone
  · rintro rfl
    exact completes_eq_true.2 (exec_decodePh_eq_next h)

/-- Settles O54: the clock taken is not part of the invariant, under which reset, `TICK`, F's operation and the idle
clock each complete. -/
theorem stepsNeverStopUnderInvariant : Obligations.StepsNeverStopUnderInvariant := by
  intro s h
  obtain ⟨p, q, n, hstep⟩ := step_eq_cases s
  have hu := inv_setEnvironment h p q n
  obtain hstep | hstep | hstep | hstep := hstep <;> rw [hstep]
  · exact ⟨_, takeReset_eq_next.2 ⟨hu.legal, rfl⟩⟩
  · exact ⟨_, exec_tick hu.legal⟩
  · exact exec_decodePh_eq_next hu
  · exact ⟨_, takeIdle_eq_next.2 ⟨hu.legal, rfl⟩⟩

/-- Taking a clock leaves the parameters alone, and the gate of whatever the clock asks for tests them first (R246). -/
theorem step_illegal {s : State} (hc : ¬ s.cfg.Legal) : step s = .refused .parametersOutsideR10 := by
  obtain ⟨p, q, n, hstep⟩ := step_eq_cases s
  obtain hstep | hstep | hstep | hstep := hstep <;> rw [hstep]
  · exact gate_illegal _ _ hc
  · exact exec_illegal (by exact hc) _
  · exact exec_illegal (by exact hc) _
  · exact gate_illegal _ _ hc

/-- Settles O51: operations and steps are all gated. -/
theorem illegalParametersAreRefused : Obligations.IllegalParametersAreRefused :=
  fun _ hc => ⟨exec_illegal hc, step_illegal hc⟩

end Sys2Proof.Machine

/-! ## Reset and the latency of the display: what 70_reset_and_hazards.md says of them -/

namespace Sys2Proof.Machine

/-! ### The clock of a reset (R260) -/

/-- A clock with `rst` is a reset, whatever else it brings: nothing is put back in the queue. -/
theorem step_of_rst {s : State} {c : Clock} {rest : List Clock} (hs : s.stim = c :: rest) (hr : c.pins.rst = true) :
    step s = takeReset { s with pins := c.pins, stim := rest } := by
  simp [step, fetch, takeClock_cons hs, hr]

/-- Settles O6: the step is the reset operation, and its gate is open under legal parameters. -/
theorem resetOverridesEverything : Obligations.ResetOverridesEverything :=
  fun _ _ _ hc hs hr => ⟨_, (step_of_rst hs hr).trans (takeReset_eq_next.2 ⟨hc, rfl⟩), rfl⟩

/-! ### The latency of a slot (R270) -/

theorem noReset_ticks (n : Nat) : NoReset (ticks n) := by
  induction n with
  | zero => exact List.forall_mem_nil _
  | succ n ih => exact List.forall_mem_cons.2 ⟨nofun, ih⟩

@[simp] theorem tickCount_ticks (n : Nat) : tickCount (ticks n) = n := by
  induction n with
  | zero => rfl
  | succ n ih =>
    have hk : tickCount [.tick] = 1 := rfl
    rw [ticks, tickCount_cons, hk, ih, Nat.add_comm]

/-- Ticks do not write the store (R40). -/
theorem runLines_ds_of_only_ticks {ls : List Line} {s t : State} (hc : s.cfg.Legal) (hls : withoutTicks ls = [])
    (hrun : runLines ls s = .next t) : t.ds = s.ds := by
  have hnone : runLines (withoutTicks ls) s = .next s := by rw [hls, runLines]
  obtain ⟨m, p, h⟩ := runLines_of_withoutTicks hc hnone s s.pins
  cases hrun.symm.trans h
  rfl

/-- The ticks up to the `n`-th refresh: the cursor has flipped `n` times, and the slot it names, which no tick writes, is on
the segment lines (R141, R142). -/
theorem runLines_ticks_to_refresh {s : State} {k n : Nat} (h : Inv s) (hk : s.cnt + k = s.cfg.th * n) (hn : n ≠ 0) :
    ∃ t, runLines (ticks k) s = .next t ∧ t.cur = s.cur ^^^ BitVec.ofNat 1 n ∧
      t.segN = ~~~(segEncode s.cfg (memRead s.ds t.cur)) ∧ t.ds = s.ds := by
  obtain ⟨-, -, -, -, hcount⟩ := tickCountLaw s (ticks k) h (noReset_ticks k)
  rw [tickCount_ticks, hk, Nat.mul_div_cancel_left n (legal_th_pos h.legal)] at hcount
  obtain ⟨t, ht, -⟩ := exists_displayRun h (noReset_ticks k)
  obtain ⟨l1, l2, u, v, hsplit, hu, -, -, -, -, hseg⟩ := ht.last_refresh (hcount ▸ hn)
  have hl1 : withoutTicks l1 = [] := by
    have hall := withoutTicks_ticks k
    rw [hsplit, withoutTicks_append] at hall
    exact (List.append_eq_nil_iff.1 hall).1
  rw [runLines_ds_of_only_ticks h.legal hl1 hu] at hseg
  exact ⟨t, ht.runLines_eq, hcount ▸ ht.cur_eq, hseg,
    runLines_ds_of_only_ticks h.legal (withoutTicks_ticks k) ht.runLines_eq⟩

/-- One flip or two bring a bit to any value. -/
theorem exists_flips (b i : Bit) : ∃ n, 1 ≤ n ∧ n ≤ 2 ∧ b ^^^ BitVec.ofNat 1 n = i := by
  have hflip : ∀ b i : Bit, b ^^^ BitVec.ofNat 1 1 = i ∨ b ^^^ BitVec.ofNat 1 2 = i := by decide
  obtain h | h := hflip b i
  · exact ⟨1, by decide, by decide, h⟩
  · exact ⟨2, by decide, by decide, h⟩

/-- Settles O21: the cursor names the slot at the first refresh or at the second, `n * TH - cnt` ticks away. -/
theorem slotShownWithinTwoPeriods : Obligations.SlotShownWithinTwoPeriods := by
  intro s i h
  obtain ⟨n, hpos, htwo, hflips⟩ := exists_flips s.cur i
  have hcnt := h.counter
  have hlow : s.cfg.th ≤ s.cfg.th * n := Nat.le_mul_of_pos_right _ hpos
  have hhigh : s.cfg.th * n ≤ s.cfg.th * 2 := Nat.mul_le_mul_left _ htwo
  have hk : s.cnt + (s.cfg.th * n - s.cnt) = s.cfg.th * n := by omega
  obtain ⟨t, hrun, hcur, hseg, hds⟩ := runLines_ticks_to_refresh h hk (Nat.ne_of_gt hpos)
  obtain rfl := hcur.trans hflips
  exact ⟨_, t, by omega, by omega, hrun, rfl, hseg, hds⟩

end Sys2Proof.Machine
